-- ==== Sys2Proof/Word.lean ====
section
/-! DEFINITION. The word types of the machine (rules R4, R5, R20): a register value, an address and an
immediate are `bits(32)`; a T32 code unit is 16 bits; memory is addressed in bytes. -/

namespace Sys2Proof

/-- `bits(32)`: a register, an address, an A32 instruction (R4, R20). -/
abbrev Word := BitVec 32

/-- `bits(16)`: one T32 halfword (R50). -/
abbrev Half := BitVec 16

/-- `bits(8)`: one byte of program text (R40). -/
abbrev Byte := BitVec 8

/-- A 4-bit register number, 0 to 15 (R20). R13 is the SP, R14 the LR, R15 the PC (R21). -/
abbrev RegNum := BitVec 4

/-- Register number of the stack pointer, `'1101'` (R21). -/
abbrev regSP : RegNum := 13#4

/-- Register number of the link register, `'1110'` (R21). -/
abbrev regLR : RegNum := 14#4

/-- Register number of the program counter, `'1111'` (R21). -/
abbrev regPC : RegNum := 15#4

end Sys2Proof
end

