-- ==== Sys2Proof/Syntax.lean ====
section
/-! DEFINITION. The instruction as syntax: one constructor for each of the eight rows of spec/opcode_table.json
(rules R72 to R79), carrying the encoding's fields under the names of rules R51 to R56. -/

namespace Sys2Proof

/-- SUB, SUBS (immediate), one constructor per encoding variant. -/
inductive Instr where
  /-- SUB, encoding A1 (R72): `SUB{<c>}{<q>} {<Rd>, }<Rn>, #<const>`. -/
  | subA1 (cond : BitVec 4) (rn rd : RegNum) (imm12 : BitVec 12)
  /-- SUBS, encoding A1 (R73): `SUBS{<c>}{<q>} {<Rd>, }<Rn>, #<const>`. -/
  | subsA1 (cond : BitVec 4) (rn rd : RegNum) (imm12 : BitVec 12)
  /-- SUB / SUBS, encoding T1 (R74): `SUB<c> <Rd>, <Rn>, #<imm3>` in an IT block, `SUBS` outside. -/
  | subT1 (imm3 : BitVec 3) (rn rd : BitVec 3)
  /-- SUB / SUBS, encoding T2 (R75): `SUB<c> <Rdn>, #<imm8>` in an IT block, `SUBS` outside. -/
  | subT2 (rdn : BitVec 3) (imm8 : BitVec 8)
  /-- SUB, encoding T3 (R76): `SUB{<c>}.W {<Rd>, }<Rn>, #<const>`. -/
  | subT3 (i : BitVec 1) (rn : RegNum) (imm3 : BitVec 3) (rd : RegNum) (imm8 : BitVec 8)
  /-- SUBS, encoding T3 (R77): `SUBS{<c>}.W {<Rd>, }<Rn>, #<const>`. -/
  | subsT3 (i : BitVec 1) (rn : RegNum) (imm3 : BitVec 3) (rd : RegNum) (imm8 : BitVec 8)
  /-- SUB / SUBW, encoding T4 (R78): `SUBW{<c>} {<Rd>, }<Rn>, #<imm12>`. -/
  | subwT4 (i : BitVec 1) (rn : RegNum) (imm3 : BitVec 3) (rd : RegNum) (imm8 : BitVec 8)
  /-- SUBS PC, LR, encoding T5 (R79): `SUBS{<c>} PC, LR, #<imm8>`. -/
  | subsPcLrT5 (rn : RegNum) (imm8 : BitVec 8)
  deriving DecidableEq, Repr

end Sys2Proof
end

