-- ==== Sys2Proof/WellFormed.lean ====
section
/-! DEFINITION. Which instruction terms the encodings admit: decision D2, "exactly the defined patterns of
`30_encoding.md` rules R51 to R56 minus rules R61, R62, R63, R64 and minus D16". A term that fails a check has a
bit pattern that is another instruction, UNPREDICTABLE, or refused; the decoder never yields it. The one
admission test that reads machine state (T5 inside an IT block and not last, R62) is in the meaning. -/

namespace Sys2Proof

/-- The 12-bit immediate `i:imm3:imm8` of T3 and T4 (R5, R58). -/
def immField (i : BitVec 1) (imm3 : BitVec 3) (imm8 : BitVec 8) : BitVec 12 := i ++ imm3 ++ imm8

/-- A T32 modified immediate of a replicated form with byte `00`: `imm12[11:10] == '00'`,
`imm12[9:8] != '00'`, `imm12[7:0] == 0` (R12, decision D16). -/
def zeroByteImm (i : BitVec 1) (imm3 : BitVec 3) (imm8 : BitVec 8) : Bool :=
  i == 0#1 && (imm3 == 1#3 || imm3 == 2#3 || imm3 == 3#3) && imm8 == 0#8

/-- The admitted instructions. -/
def Instr.wf : Instr → Bool
  -- A1, S = 0: cond != 1111 (R64); Rn = 1111 is ADR and Rn = 1101 is SUB (SP minus immediate) (R61)
  | .subA1 cond rn _ _ => cond != 15#4 && rn != regPC && rn != regSP
  -- A1, S = 1: cond != 1111 (R64); Rn = 1101 is SUB (SP minus immediate); Rn = 1111 is admitted (C4)
  | .subsA1 cond rn _ _ => cond != 15#4 && rn != regSP
  -- T1 and T2: "No field value is excluded" (R52, R53)
  | .subT1 _ _ _ => true
  | .subT2 _ _ => true
  -- T3, S = 0: Rn = 1101 (R61); Rd = 1111, Rn = 1111 (R62); a zero replicated byte (D16)
  | .subT3 i rn imm3 rd imm8 => rn != regSP && rd != regPC && rn != regPC && !zeroByteImm i imm3 imm8
  -- T3, S = 1: Rd = 1111 is CMP (R61); the rest as above
  | .subsT3 i rn imm3 rd imm8 => rd != regPC && rn != regSP && rn != regPC && !zeroByteImm i imm3 imm8
  -- T4: Rn = 1111 is ADR, Rn = 1101 is SUB SP (R61); Rd = 1111 (R62)
  | .subwT4 _ rn _ rd _ => rn != regPC && rn != regSP && rd != regPC
  -- T5: "only 14 is defined" (R57); Rn = LR with imm8 = 0 is ERET (R61)
  | .subsPcLrT5 rn imm8 => rn == regLR && imm8 != 0#8

end Sys2Proof
end

