-- ==== Sys2Proof/Decode.lean ====
section
/-! DEFINITION. The decoder: total on any bytes, rejecting by name (rules R50 to R66), then the encoder, written
from the same layouts. Within one encoding the order of the tests is R111's: the SEE exits, the should-be bits, the
zero replicated byte, the UNPREDICTABLE tests. -/

namespace Sys2Proof

/-- The instructions the SEE exits name (R61), and "no match" (R64, R65). -/
inductive SeeTarget where
  | adr | subSpMinusImmediate | cmpImmediate | eret | noMatch
  deriving DecidableEq, Repr

/-- The UNPREDICTABLE tests on the bits of an encoding (R62). -/
inductive EncodingCheck where
  | t3Rd15Sub | t3Rn15 | t4Rd15 | t5RnNotLR
  deriving DecidableEq, Repr

/-- Why a bit pattern is not an admitted instruction. -/
inductive Reject where
  /-- It is another instruction, or none this spec gives (R61, R64, R65). -/
  | notThisInstruction (target : SeeTarget)
  /-- The decode takes an UNPREDICTABLE exit (R62). -/
  | unpredictable (check : EncodingCheck)
  /-- A should-be bit of T5 is violated (R63). -/
  | shouldBeBits
  /-- A replicated T32 immediate of byte `00` (R12, decision D16). -/
  | t32ExpandImmZeroByte
  /-- Fewer bytes were given than the instruction has. -/
  | truncated
  deriving DecidableEq, Repr

/-- Encoding A1 (R51): `cccc 0010 010S nnnn dddd iiii iiii iiii`, cond != 1111 (R64). -/
def decodeA32 (w : Word) : Except Reject Instr :=
  let cond := w.extractLsb' 28 4
  let rn := w.extractLsb' 16 4
  let rd := w.extractLsb' 12 4
  let imm12 := w.extractLsb' 0 12
  if w.extractLsb' 21 7 = 0b0010010#7 ∧ cond ≠ 15#4 then
    if w.extractLsb' 20 1 = 0#1 then
      if rn = regPC then .error (.notThisInstruction .adr)
      else if rn = regSP then .error (.notThisInstruction .subSpMinusImmediate)
      else .ok (.subA1 cond rn rd imm12)
    else
      if rn = regSP then .error (.notThisInstruction .subSpMinusImmediate)
      else .ok (.subsA1 cond rn rd imm12)
  else .error (.notThisInstruction .noMatch)

/-- The 16-bit T32 encodings: T1 `0001 111i iinn nddd` (R52), T2 `0011 1ddd iiii iiii` (R53). -/
def decodeT16 (hw : Half) : Except Reject Instr :=
  if hw.extractLsb' 9 7 = 0b0001111#7 then
    .ok (.subT1 (hw.extractLsb' 6 3) (hw.extractLsb' 3 3) (hw.extractLsb' 0 3))
  else if hw.extractLsb' 11 5 = 0b00111#5 then
    .ok (.subT2 (hw.extractLsb' 8 3) (hw.extractLsb' 0 8))
  else .error (.notThisInstruction .noMatch)

/-- The decode of T3, after its fixed bits matched (R54, R59, R61, R62). -/
def decodeT3 (s : Bool) (i : BitVec 1) (rn : RegNum) (imm3 : BitVec 3) (rd : RegNum) (imm8 : BitVec 8) :
    Except Reject Instr :=
  if rd = regPC ∧ s = true then .error (.notThisInstruction .cmpImmediate)
  else if rn = regSP then .error (.notThisInstruction .subSpMinusImmediate)
  else if zeroByteImm i imm3 imm8 then .error .t32ExpandImmZeroByte
  else if rd = regPC then .error (.unpredictable .t3Rd15Sub)
  else if rn = regPC then .error (.unpredictable .t3Rn15)
  else if s then .ok (.subsT3 i rn imm3 rd imm8)
  else .ok (.subT3 i rn imm3 rd imm8)

/-- The decode of T4, after its fixed bits matched (R55, R59, R61, R62). -/
def decodeT4 (i : BitVec 1) (rn : RegNum) (imm3 : BitVec 3) (rd : RegNum) (imm8 : BitVec 8) :
    Except Reject Instr :=
  if rn = regPC then .error (.notThisInstruction .adr)
  else if rn = regSP then .error (.notThisInstruction .subSpMinusImmediate)
  else if rd = regPC then .error (.unpredictable .t4Rd15)
  else .ok (.subwT4 i rn imm3 rd imm8)

/-- The decode of T5, after its fixed bits matched on mask `0xFFF0D000` (R56, R59, R61, R62, R63). `sbz` is hw2 bit
13 and `sbo` hw2 bits 11:8. -/
def decodeT5 (rn : RegNum) (sbz : BitVec 1) (sbo : BitVec 4) (imm8 : BitVec 8) : Except Reject Instr :=
  if rn = regLR ∧ imm8 = 0#8 then .error (.notThisInstruction .eret)
  else if sbz ≠ 0#1 ∨ sbo ≠ 0b1111#4 then .error .shouldBeBits
  else if rn ≠ regLR then .error (.unpredictable .t5RnNotLR)
  else .ok (.subsPcLrT5 rn imm8)

/-- The 32-bit T32 encodings on `hw1:hw2`, hw1 = bits 31:16 (R50):
T3 `1111 0i01 101S nnnn 0iii dddd iiii iiii` (R54), T4 `1111 0i10 1010 nnnn 0iii dddd iiii iiii` (R55),
T5 `1111 0011 1101 nnnn 10(0)0 (1)(1)(1)(1) iiii iiii` (R56). -/
def decodeT32 (w : Word) : Except Reject Instr :=
  let i := w.extractLsb' 26 1
  let rn := w.extractLsb' 16 4
  let imm3 := w.extractLsb' 12 3
  let rd := w.extractLsb' 8 4
  let imm8 := w.extractLsb' 0 8
  if w.extractLsb' 27 5 = 0b11110#5 ∧ w.extractLsb' 21 5 = 0b01101#5 ∧ w.extractLsb' 15 1 = 0#1 then
    decodeT3 (w.extractLsb' 20 1 == 1#1) i rn imm3 rd imm8
  else if w.extractLsb' 27 5 = 0b11110#5 ∧ w.extractLsb' 20 6 = 0b101010#6 ∧ w.extractLsb' 15 1 = 0#1 then
    decodeT4 i rn imm3 rd imm8
  else if w.extractLsb' 20 12 = 0b111100111101#12 ∧ w.extractLsb' 14 2 = 0b10#2 ∧ w.extractLsb' 12 1 = 0#1 then
    decodeT5 rn (w.extractLsb' 13 1) (w.extractLsb' 8 4) imm8
  else .error (.notThisInstruction .noMatch)

/-- Telling the length of a T32 instruction (R66): `hw1[15:11]` is `11101`, `11110` or `11111`. -/
def isT32Long (hw : Half) : Bool :=
  hw.extractLsb' 11 5 == 0b11101#5 || hw.extractLsb' 11 5 == 0b11110#5 || hw.extractLsb' 11 5 == 0b11111#5

/-- A halfword from its two bytes, little-endian (R42). -/
def halfOf (b0 b1 : Byte) : Half := b1 ++ b0

/-- An A32 word from its four bytes, little-endian (R42). -/
def wordOf (b0 b1 b2 b3 : Byte) : Word := b3 ++ b2 ++ b1 ++ b0

/-- The A32 decoder on bytes: the instruction and the bytes after it (R42, R50). -/
def decodeA32Bytes : List Byte → Except Reject (Instr × List Byte)
  | b0 :: b1 :: b2 :: b3 :: rest =>
    match decodeA32 (wordOf b0 b1 b2 b3) with
    | .error e => .error e
    | .ok i => .ok (i, rest)
  | _ => .error .truncated

/-- The T32 decoder on bytes: the first halfword says whether a second follows (R42, R50, R66). -/
def decodeT32Bytes : List Byte → Except Reject (Instr × List Byte)
  | b0 :: b1 :: rest =>
    if isT32Long (halfOf b0 b1) then
      match rest with
      | b2 :: b3 :: rest' =>
        match decodeT32 (halfOf b0 b1 ++ halfOf b2 b3) with
        | .error e => .error e
        | .ok i => .ok (i, rest')
      | _ => .error .truncated
    else
      match decodeT16 (halfOf b0 b1) with
      | .error e => .error e
      | .ok i => .ok (i, rest)
  | _ => .error .truncated

/-- The decoder. `t32` is PSTATE.T: "Which instruction set's decoder runs is chosen by PSTATE.T" (R30, R50). -/
def decode (t32 : Bool) (bytes : List Byte) : Except Reject (Instr × List Byte) :=
  if t32 then decodeT32Bytes bytes else decodeA32Bytes bytes

/-! ## The encoder -/

/-- Whether the encoding belongs to the A32 instruction set (R1). -/
def Instr.isA32 : Instr → Bool
  | .subA1 .. => true
  | .subsA1 .. => true
  | .subT1 .. => false
  | .subT2 .. => false
  | .subT3 .. => false
  | .subsT3 .. => false
  | .subwT4 .. => false
  | .subsPcLrT5 .. => false

/-- The length of the instruction in bytes (R50). -/
def Instr.length : Instr → Nat
  | .subA1 .. => 4
  | .subsA1 .. => 4
  | .subT1 .. => 2
  | .subT2 .. => 2
  | .subT3 .. => 4
  | .subsT3 .. => 4
  | .subwT4 .. => 4
  | .subsPcLrT5 .. => 4

/-- Encoding A1 (R51). -/
def encA1 (s : BitVec 1) (cond : BitVec 4) (rn rd : RegNum) (imm12 : BitVec 12) : Word :=
  cond ++ 0b0010010#7 ++ s ++ rn ++ rd ++ imm12

/-- Encoding T1 (R52). -/
def encT1 (imm3 rn rd : BitVec 3) : Half := 0b0001111#7 ++ imm3 ++ rn ++ rd

/-- Encoding T2 (R53). -/
def encT2 (rdn : BitVec 3) (imm8 : BitVec 8) : Half := 0b00111#5 ++ rdn ++ imm8

/-- Encoding T3 (R54), `hw1:hw2`. -/
def encT3 (s i : BitVec 1) (rn : RegNum) (imm3 : BitVec 3) (rd : RegNum) (imm8 : BitVec 8) : Word :=
  0b11110#5 ++ i ++ 0b01101#5 ++ s ++ rn ++ 0#1 ++ imm3 ++ rd ++ imm8

/-- Encoding T4 (R55), `hw1:hw2`. -/
def encT4 (i : BitVec 1) (rn : RegNum) (imm3 : BitVec 3) (rd : RegNum) (imm8 : BitVec 8) : Word :=
  0b11110#5 ++ i ++ 0b101010#6 ++ rn ++ 0#1 ++ imm3 ++ rd ++ imm8

/-- Encoding T5 (R56) with its should-be bits at their values (R63), `hw1:hw2`. -/
def encT5 (rn : RegNum) (imm8 : BitVec 8) : Word :=
  0b111100111101#12 ++ rn ++ 0b10001111#8 ++ imm8

/-- The bits of an instruction as one number: an A32 word, `hw1:hw2` for a 32-bit T32 instruction, a halfword
extended by zeros for a 16-bit one (R50). -/
def encodeBits : Instr → Word
  | .subA1 cond rn rd imm12 => encA1 0#1 cond rn rd imm12
  | .subsA1 cond rn rd imm12 => encA1 1#1 cond rn rd imm12
  | .subT1 imm3 rn rd => (encT1 imm3 rn rd).setWidth 32
  | .subT2 rdn imm8 => (encT2 rdn imm8).setWidth 32
  | .subT3 i rn imm3 rd imm8 => encT3 0#1 i rn imm3 rd imm8
  | .subsT3 i rn imm3 rd imm8 => encT3 1#1 i rn imm3 rd imm8
  | .subwT4 i rn imm3 rd imm8 => encT4 i rn imm3 rd imm8
  | .subsPcLrT5 rn imm8 => encT5 rn imm8

/-- A halfword's two bytes in memory order (R42). -/
def halfBytes (hw : Half) : List Byte := [hw.extractLsb' 0 8, hw.extractLsb' 8 8]

/-- An A32 word's four bytes in memory order (R42). -/
def wordBytes (w : Word) : List Byte :=
  [w.extractLsb' 0 8, w.extractLsb' 8 8, w.extractLsb' 16 8, w.extractLsb' 24 8]

/-- The bytes of `hw1:hw2` in memory order: hw1 at the lower address (R42, R50). -/
def pairBytes (w : Word) : List Byte := halfBytes (w.extractLsb' 16 16) ++ halfBytes (w.extractLsb' 0 16)

/-- The encoder: the bytes of an instruction as they stand in memory (R42, R50). -/
def encode (i : Instr) : List Byte :=
  if i.isA32 then wordBytes (encodeBits i)
  else if i.length = 2 then halfBytes ((encodeBits i).setWidth 16)
  else pairBytes (encodeBits i)

/-! ## Words numbered as spec/opcode_table.json numbers them -/

/-- Which instruction set a table word belongs to: the 16-bit rows are T32; a 32-bit word whose bits 31:27 open a
32-bit T32 instruction (R66) is `hw1:hw2`; any other is an A32 word. The two never collide on this instruction:
A1 has bit 27 = 0 and cond != 1111 (R51, R64), and bits 31:27 = `11101` have bit 27 = 1. -/
def tableIsT32 (nbits w : Nat) : Bool :=
  nbits ≤ 16 || isT32Long ((BitVec.ofNat 32 w).extractLsb' 16 16)

/-- The bytes of a table word as the hardware stores it, four of them, zeros above `nbits`. -/
def tableBytes (nbits w : Nat) : List Byte :=
  if nbits ≤ 16 then halfBytes (BitVec.ofNat 16 w) ++ [0#8, 0#8]
  else if tableIsT32 nbits w then pairBytes (BitVec.ofNat 32 w)
  else wordBytes (BitVec.ofNat 32 w)

/-- The instruction the decoder reads from a table word; none where it rejects. -/
def decodeTableWord (nbits w : Nat) : Option Instr :=
  match decode (tableIsT32 nbits w) (tableBytes nbits w) with
  | .ok (i, _) => some i
  | .error _ => none

end Sys2Proof
end

