-- ==== Sys2Proof/Config.lean ====
section
/-! DEFINITION. What no rule of the spec fixes and no state carries: the one source of free values, and the
values this model names for State.reset where the spec says UNKNOWN or IMPLEMENTATION DEFINED.
The parameters of rule R4 are no constants ("The model takes them as arguments of the step function, never as
constants"), so they stand in State (Machine/State.lean, structure Params), where a claim quantifies over them. -/

namespace Sys2Proof

/-- The free values of the model: what the architecture leaves UNKNOWN ("a value the architecture does not fix;
model: a draw", R13). The `k`-th draw of a run is `freeValue k`; it has no body, so nothing can be proved about any
value of it. Assumption log 3. -/
opaque Config.freeValue : Nat → Word

/-- Where the PC stands after reset. R35: "the reset vector: IMPLEMENTATION DEFINED (`0x00000000`, or `0xFFFF0000`,
or the value of a reset vector base register)". DESIGN CHOICE, unsafe: the first of the three. Assumption log 5. -/
def Config.resetVector : Word := 0x00000000#32

/-- What a register holds after reset where R35 says UNKNOWN. DESIGN CHOICE, unsafe: zero. Assumption log 4. -/
def Config.resetUnknown : Word := 0x00000000#32

end Sys2Proof
end

