-- ==== Sys2Proof/Machine/Parts.lean ====
section
/-! DEFINITION. The parts of the state: the modes, the banked registers, PSTATE, the system-register state, the
parameters rule R4 gives the step (held in State because the step takes no other argument), and what each holds after
reset (R35). -/

namespace Sys2Proof.Machine

/-- The nine AArch32 modes (R31). PSTATE.M holds one of them: "Every other value of M[4:0] is reserved". -/
inductive Mode where
  | usr | fiq | irq | svc | mon | abt | hyp | und | sys
  deriving DecidableEq, Repr

/-- The copies of R13 (R22). -/
inductive SpBank where
  | usr | hyp | svc | abt | und | mon | irq | fiq
  deriving DecidableEq, Repr

/-- The copies of R14 (R22): Hyp mode uses `LR_usr`. -/
inductive LrBank where
  | usr | svc | abt | und | mon | irq | fiq
  deriving DecidableEq, Repr

/-- The SPSRs (R22): User and System have none. -/
inductive SpsrBank where
  | hyp | svc | abt | und | mon | irq | fiq
  deriving DecidableEq, Repr

/-- The physical general-purpose registers the numbers 0 to 14 can name (R22). -/
inductive PhysReg where
  /-- R0 to R7, one copy. -/
  | low (n : Fin 8)
  /-- R8 to R12: the `_usr` copy (false) or the `_fiq` copy (true). -/
  | mid (fiq : Bool) (n : Fin 5)
  /-- R13, the SP. -/
  | sp (b : SpBank)
  /-- R14, the LR. -/
  | lr (b : LrBank)
  deriving DecidableEq, Repr

/-- The copies of the SP (R22). -/
structure SpFile where
  usr : Word
  hyp : Word
  svc : Word
  abt : Word
  und : Word
  mon : Word
  irq : Word
  fiq : Word
  deriving DecidableEq, Repr

/-- The copies of the LR (R22). -/
structure LrFile where
  usr : Word
  svc : Word
  abt : Word
  und : Word
  mon : Word
  irq : Word
  fiq : Word
  deriving DecidableEq, Repr

/-- The Saved Program Status Registers (R22, R32). -/
structure SpsrFile where
  hyp : Word
  svc : Word
  abt : Word
  und : Word
  mon : Word
  irq : Word
  fiq : Word
  deriving DecidableEq, Repr

/-- The banked general-purpose registers R0 to R14 (R20, R22). R15 is no storage register: it is `State.pc`. -/
structure RegFile where
  /-- R0 to R7. -/
  low : Vector Word 8
  /-- R8_usr to R12_usr. -/
  midUsr : Vector Word 5
  /-- R8_fiq to R12_fiq. -/
  midFiq : Vector Word 5
  sp : SpFile
  lr : LrFile
  deriving DecidableEq, Repr

/-- The condition flags (R26): negative, zero, carry ("not borrow"), signed overflow. -/
structure Nzcv where
  n : Bool
  z : Bool
  c : Bool
  v : Bool
  deriving DecidableEq, Repr

/-- PSTATE, with every field of R29's table but EL and nRW, which "are implied by M" (`Mode.level`). -/
structure Pstate where
  /-- N, Z, C, V. -/
  flags : Nzcv
  /-- Cumulative saturation. -/
  q : Bool
  /-- SIMD greater-or-equal flags. -/
  ge : BitVec 4
  /-- IT state (R28). -/
  it : BitVec 8
  /-- Data endianness; no data access is in scope. -/
  e : Bool
  /-- SError mask. -/
  a : Bool
  /-- IRQ mask. -/
  i : Bool
  /-- FIQ mask. -/
  f : Bool
  /-- Instruction set: false A32, true T32 (R30). -/
  t : Bool
  /-- The mode (R31). -/
  m : Mode
  /-- Illegal execution state. -/
  il : Bool
  /-- Software step. -/
  ss : Bool
  /-- Privileged access never. -/
  pan : Bool
  /-- Speculative store bypass safe. -/
  ssbs : Bool
  /-- Data independent timing (R33). -/
  dit : Bool
  deriving DecidableEq, Repr

/-- The system-register state that an exception return or entry reads (R34, R104, R107, R113). No instruction in
scope writes it. -/
structure SysCtl where
  /-- SCTLR.ITD: IT blocks are restricted at EL0, EL1 and EL3 (R103, R113). -/
  sctlrITD : Bool
  /-- HSCTLR.ITD: the same for Hyp mode (R103, R113). -/
  hsctlrITD : Bool
  /-- SCTLR.TE: the instruction set an exception is taken in (R107). -/
  sctlrTE : Bool
  /-- SCTLR.EE: PSTATE.E on taking an exception (R107). -/
  sctlrEE : Bool
  /-- High vectors are selected: the vector base is `0xFFFF0000` (R107). -/
  highVectors : Bool
  /-- VBAR, the vector base otherwise (R107). -/
  vbar : Word
  /-- SCR.NS: Non-secure state (R104, R113). -/
  scrNS : Bool
  /-- HCR.TGE (R104, R113). -/
  hcrTGE : Bool
  deriving DecidableEq, Repr

/-- The parameter `ALUExcReturnUserSys` (R4): what SUBS PC does in User or System mode. -/
inductive UserSysReturn where
  /-- The implementation's choice is not given: the model refuses (R101, decision D8). -/
  | unresolved
  /-- The instruction is UNDEFINED. -/
  | undefined
  /-- The instruction executes as a NOP. -/
  | nop
  deriving DecidableEq, Repr

/-- The parameter `A32ForceAlignPC` (R4): a branch to an A32 address with bit 1 set. -/
inductive ForceAlign where
  /-- The implementation's choice is not given: the model refuses (R91, decision D11). -/
  | unresolved
  /-- `A32ForceAlignPC` true: bit 1 is cleared. -/
  | clears
  /-- `A32ForceAlignPC` false: bit 1 is left set, and the fetch at the target takes a PC alignment fault. -/
  | leaves
  deriving DecidableEq, Repr

/-- How far the model follows a synchronous exception. -/
inductive ExceptionModel where
  /-- Decision D7: "an exception is a terminal `fault` outcome naming its cause; the handler is not entered". -/
  | terminal
  /-- The entry sequence R107 gives "for a reader who extends the model" is taken, and an illegal exception return
  is followed into the Illegal Execution state as R102 to R104 describe. -/
  | entered
  deriving DecidableEq, Repr

/-- The parameters of the step (R4), constant during a run. -/
structure Params where
  /-- Hyp mode (EL2 using AArch32) is implemented. -/
  haveEL2 : Bool
  /-- Monitor mode / Secure state is implemented. -/
  haveEL3 : Bool
  /-- The DIT bit exists. -/
  haveDIT : Bool
  /-- PSTATE.PAN exists (R29 "if implemented"). -/
  havePAN : Bool
  /-- PSTATE.SSBS exists (R29 "if implemented"). -/
  haveSSBS : Bool
  /-- Software step is active (R103: PSTATE.SS is then "a debug-determined value"). -/
  softwareStep : Bool
  aluExcReturnUserSys : UserSysReturn
  a32ForceAlignPC : ForceAlign
  exceptions : ExceptionModel
  /-- The parameter `LegalReturn` (R4, R104), as the list of (current mode, SPSR value) pairs it rejects beyond the
  cases R104 says it must reject. -/
  illegalReturns : List (Mode × Word)
  deriving DecidableEq, Repr

/-! ## Reset (R35) -/

/-- R0 to R14 after reset: UNKNOWN (R35); the log's value. Assumption log 4. -/
def RegFile.reset : RegFile :=
  let u := Config.resetUnknown
  { low := Vector.replicate 8 u, midUsr := Vector.replicate 5 u, midFiq := Vector.replicate 5 u
    sp := ⟨u, u, u, u, u, u, u, u⟩, lr := ⟨u, u, u, u, u, u, u⟩ }

/-- The SPSRs after reset: UNKNOWN (R35); the log's value. Assumption log 4. -/
def SpsrFile.reset : SpsrFile :=
  let u := Config.resetUnknown
  ⟨u, u, u, u, u, u, u⟩

/-- PSTATE after reset (R35): IT 0, A, I and F 1, M Supervisor, IL and SS 0, DIT 0. N, Z, C, V, Q and GE are
UNKNOWN, T, E, PAN and SSBS IMPLEMENTATION DEFINED there: the log's zeros. Assumption logs 4 and 5. -/
def Pstate.reset : Pstate :=
  { flags := ⟨false, false, false, false⟩, q := false, ge := 0#4, it := 0#8, e := false
    a := true, i := true, f := true, t := false, m := .svc, il := false, ss := false
    pan := false, ssbs := false, dit := false }

/-- System-register state after reset: Secure (R35: "Supervisor, Secure if `HaveEL3`"); the rest is the log's
choice. Assumption log 5. -/
def SysCtl.reset : SysCtl :=
  { sctlrITD := false, hsctlrITD := false, sctlrTE := false, sctlrEE := false, highVectors := false
    vbar := Config.resetUnknown, scrNS := false, hcrTGE := false }

/-- The parameters State.reset carries; every statement quantifies over all of them. Assumption log 6. -/
def Params.reset : Params :=
  { haveEL2 := true, haveEL3 := true, haveDIT := true, havePAN := true, haveSSBS := true, softwareStep := false
    aluExcReturnUserSys := .unresolved, a32ForceAlignPC := .unresolved, exceptions := .terminal
    illegalReturns := [] }

end Sys2Proof.Machine
end

