-- ==== Sys2Proof/Machine/State.lean ====
section
/-! DEFINITION. The state of the PE (rules R20 to R35), the faults and refusals of rule R16, and the state after reset
(R35, R120). All of it is plain data; Machine/Parts.lean holds the types of its parts and their reset values.
INVENTORY.md lists every field with its rule and reset value. -/

namespace Sys2Proof.Machine

/-- The program text: the parameter `Fetch : bits(32) -> Option byte` (R4, R40) as (address, byte) pairs with
strictly rising addresses below 2^32; an unlisted address reads as `none`. -/
abbrev Memory := List Host.Cell

/-- The state of the machine. -/
structure State where
  /-- R0 to R14, every banked copy. -/
  regs : RegFile
  /-- The SPSRs. -/
  spsr : SpsrFile
  /-- ELR_hyp (R22), which no instruction in scope reads or writes. -/
  elrHyp : Word
  /-- The address of the instruction that executes (R24). -/
  pc : Word
  /-- The process state. -/
  pstate : Pstate
  /-- The program text, the parameter `Fetch`. -/
  mem : Memory
  /-- System-register state. -/
  sys : SysCtl
  /-- The parameters of R4. -/
  par : Params
  /-- The local exclusive monitor is in its exclusive state (R34). -/
  exclusive : Bool
  /-- The PE's event register (R34). -/
  event : Bool
  /-- THE MODEL'S OWN: how many free values have been drawn (R13 "a draw"; Config.freeValue). -/
  draws : Nat
  deriving DecidableEq, Repr

/-- Why a step ends in an exception that is not followed into a handler (R16). Each is safe: the model stops where
the PE goes on in a handler. -/
inductive Fault where
  /-- An Undefined Instruction exception, "with the instruction's address and bits as info" (R106). Raised by SUBS
  with destination PC in Hyp mode, by the same in User or System mode where it is UNDEFINED, and by a step in the
  Illegal Execution state. Safe. -/
  | undefinedInstruction (addr bits : Word)
  /-- An exception return whose SPSR describes an illegal return (R104), at the address of the returning
  instruction. Safe. -/
  | illegalReturn (addr : Word)
  /-- A fetch from an A32 address that is no multiple of 4 (R43). Raised by the fetch. Safe. -/
  | pcAlignment (addr : Word)
  /-- A fetch of a unit of which some byte is not in the program text (R40, R45). Raised by the fetch. Safe. -/
  | fetchAbort (addr : Word)
  deriving DecidableEq, Repr

/-- The UNPREDICTABLE cases the model refuses (R13, R62). -/
inductive UnpredictableCheck where
  /-- T3 with S = 0 and Rd = PC: the spec's `T3_Rd15_SUB`. -/
  | t3Rd15Sub
  /-- T3 with Rn = PC: `T3_Rn15`. -/
  | t3Rn15
  /-- T4 with Rd = PC: `T4_Rd15`. -/
  | t4Rd15
  /-- T5 with Rn other than LR: `T5_RnNotLR`. -/
  | t5RnNotLR
  /-- T5 inside an IT block and not last: `T5_NotLastInIT`. -/
  | t5NotLastInIT
  /-- A reserved IT state met by CurrentCond (R27): `IT_Reserved`. -/
  | itReserved
  /-- SUBS with destination PC in User or System mode (R101): `ExcReturn_UserSys`. -/
  | excReturnUserSys
  /-- An interworking branch to an address with bits [1:0] = `10` (R91): `BX_A32_Unaligned`. -/
  | bxA32Unaligned
  deriving DecidableEq, Repr

/-- Why the spec gives a step no meaning (R16). Each is safe: the model stops where the PE goes on somehow. -/
inductive Refusal where
  /-- An instruction of the opcode table with no meaning yet. Raised by no arm of this model. -/
  | notModelled (mnemonic : String)
  /-- The word is another instruction, or none of this spec (R61, R64, R65). Raised by the decoder. Safe. -/
  | notThisInstruction (target : SeeTarget)
  /-- UNPREDICTABLE or CONSTRAINED UNPREDICTABLE with no choice given (R13). Raised by the decoder, the T5 meaning,
  CurrentCond, ALUExceptionReturn and BXWritePC. Safe. -/
  | unpredictable (check : UnpredictableCheck)
  /-- A should-be bit of T5 is violated (R63). Raised by the decoder. Safe. -/
  | shouldBeBits
  /-- A replicated T32 immediate of byte `00` (R12, decision D16). Raised by the decoder. Safe. -/
  | t32ExpandImmZeroByte
  /-- A sequential advance past `0xFFFFFFFF` (R95, decision D5). Raised by Complete. Safe. -/
  | pcWrap
  /-- PSTATE.T = 1 with `pc[0] = 1`: "the launch state is ill-formed and the model refuses it" (R43). Raised by the
  fetch. Safe. -/
  | illFormedLaunch
  deriving DecidableEq, Repr

/-! ## Reset (R35) -/

/-- The machine right after reset (R35), with no program text. "There is no reset in the model" (R120): claims are
about every state; this is one of them. -/
def State.reset : State :=
  { regs := RegFile.reset, spsr := SpsrFile.reset, elrHyp := Config.resetUnknown, pc := Config.resetVector
    pstate := Pstate.reset, mem := [], sys := SysCtl.reset, par := Params.reset
    exclusive := false, event := false, draws := 0 }

end Sys2Proof.Machine
end

