-- ==== Sys2Proof/Machine/Operands.lean ====
section
/-! DEFINITION. The operands of each encoding: the immediate expansions (R7, R9, R11, R12), and the values
`d`, `n`, `setflags`, `imm32` the decode of each encoding assigns (R57, R58, R60). -/

namespace Sys2Proof.Machine

/-- `ROR(v, s)` (R9): rotation right by `s mod 32`. -/
def ror (v : Word) (s : Nat) : Word := v.rotateRight s

/-- `A32ExpandImm` (R11): the low 8 bits rotated right by twice the top 4 bits. -/
def a32ExpandImm (imm12 : BitVec 12) : Word :=
  ror ((imm12.extractLsb' 0 8).setWidth 32) (2 * (imm12.extractLsb' 8 4).toNat)

/-- `T32ExpandImm` (R12). -/
def t32ExpandImm (imm12 : BitVec 12) : Word :=
  let b := imm12.extractLsb' 0 8
  if imm12.extractLsb' 10 2 = 0b00#2 then
    if imm12.extractLsb' 8 2 = 0b00#2 then b.setWidth 32
    else if imm12.extractLsb' 8 2 = 0b01#2 then 0#8 ++ b ++ 0#8 ++ b
    else if imm12.extractLsb' 8 2 = 0b10#2 then b ++ 0#8 ++ b ++ 0#8
    else b ++ b ++ b ++ b
  else ror ((1#1 ++ imm12.extractLsb' 0 7).setWidth 32) (imm12.extractLsb' 7 5).toNat

/-- `InITBlock()` (R28): `PSTATE.IT[3:0] != '0000'`. -/
def inITBlock (it : BitVec 8) : Bool := it.extractLsb' 0 4 != 0b0000#4

/-- `LastInITBlock()` (R28): `PSTATE.IT[3:0] == '1000'`. -/
def lastInITBlock (it : BitVec 8) : Bool := it.extractLsb' 0 4 == 0b1000#4

/-- The reserved IT states: `IT[7:4] != 0000 && IT[3:0] == 0000` (R27, R120, decision D21). -/
def itReserved (it : BitVec 8) : Bool := it.extractLsb' 4 4 != 0b0000#4 && it.extractLsb' 0 4 == 0b0000#4

/-- `ITAdvance()` on the value of PSTATE.IT (R28). -/
def itAdvance (it : BitVec 8) : BitVec 8 :=
  if it.extractLsb' 0 3 = 0b000#3 then 0#8
  else it.extractLsb' 5 3 ++ (it.extractLsb' 0 5 <<< 1)

/-- What the decode of an encoding gives the Operation (R14, R70), with what Complete and the exceptions need to know
of the instruction. -/
structure Decoded where
  /-- The field `cond` of an A32 instruction; `none` for a T32 one, whose condition is the IT state's (R27). -/
  cond : Option (BitVec 4)
  /-- The length in bytes (R50). -/
  len : Nat
  /-- The bits of the instruction (R106). -/
  bits : Word
  /-- The destination register number. -/
  d : RegNum
  /-- The first operand's register number. -/
  n : RegNum
  setflags : Bool
  imm32 : Word
  deriving DecidableEq, Repr

/-- The instruction is A32. -/
def Decoded.isA32 (x : Decoded) : Bool := x.cond.isSome

/-- A1 (R57, R58, R60): `setflags` is `(S == '1')`. -/
def decodedA1 (setflags : Bool) (i : Instr) (cond : BitVec 4) (rn rd : RegNum) (imm12 : BitVec 12) : Decoded :=
  { cond := some cond, len := i.length, bits := encodeBits i, d := rd, n := rn, setflags := setflags
    imm32 := a32ExpandImm imm12 }

/-- T1 (R57, R58, R60): `imm32 = ZeroExtend(imm3, 32)`, `setflags = !InITBlock()`. -/
def decodedT1 (imm3 rn rd : BitVec 3) (it : BitVec 8) : Decoded :=
  { cond := none, len := Instr.length (.subT1 imm3 rn rd), bits := encodeBits (.subT1 imm3 rn rd)
    d := rd.setWidth 4, n := rn.setWidth 4, setflags := !inITBlock it, imm32 := imm3.setWidth 32 }

/-- T2 (R57, R58, R60): one register, `imm32 = ZeroExtend(imm8, 32)`, `setflags = !InITBlock()`. -/
def decodedT2 (rdn : BitVec 3) (imm8 : BitVec 8) (it : BitVec 8) : Decoded :=
  { cond := none, len := Instr.length (.subT2 rdn imm8), bits := encodeBits (.subT2 rdn imm8)
    d := rdn.setWidth 4, n := rdn.setWidth 4, setflags := !inITBlock it, imm32 := imm8.setWidth 32 }

/-- T3 (R57, R58, R60): `imm32 = T32ExpandImm(i:imm3:imm8)`, `setflags = (S == '1')`. -/
def decodedT3 (setflags : Bool) (x : Instr) (i : BitVec 1) (rn : RegNum) (imm3 : BitVec 3) (rd : RegNum)
    (imm8 : BitVec 8) : Decoded :=
  { cond := none, len := x.length, bits := encodeBits x, d := rd, n := rn, setflags := setflags
    imm32 := t32ExpandImm (immField i imm3 imm8) }

/-- T4 (R57, R58, R60): `imm32 = ZeroExtend(i:imm3:imm8, 32)`, `setflags = FALSE`. -/
def decodedT4 (i : BitVec 1) (rn : RegNum) (imm3 : BitVec 3) (rd : RegNum) (imm8 : BitVec 8) : Decoded :=
  { cond := none, len := Instr.length (.subwT4 i rn imm3 rd imm8), bits := encodeBits (.subwT4 i rn imm3 rd imm8)
    d := rd, n := rn, setflags := false, imm32 := (immField i imm3 imm8).setWidth 32 }

/-- T5 (R57, R58, R60): "constant integer d = 15", `imm32 = ZeroExtend(imm8, 32)`, `setflags = TRUE`. -/
def decodedT5 (rn : RegNum) (imm8 : BitVec 8) : Decoded :=
  { cond := none, len := Instr.length (.subsPcLrT5 rn imm8), bits := encodeBits (.subsPcLrT5 rn imm8)
    d := regPC, n := rn, setflags := true, imm32 := imm8.setWidth 32 }

end Sys2Proof.Machine
end

