-- ==== Sys2Proof/Machine/Flags.lean ====
section
/-! DEFINITION. The arithmetic with its flags (R10) and the condition test (R27). -/

namespace Sys2Proof.Machine

/-- `AddWithCarry` (R10): the exact unsigned and signed sums, narrowed, and the four flags by comparison with what
the narrowed result reads as. -/
def addWithCarry (x y : Word) (carryIn : Bool) : Word × Nzcv :=
  let unsignedSum : Nat := x.toNat + y.toNat + carryIn.toNat
  let signedSum : Int := x.toInt + y.toInt + carryIn.toInt
  let result : Word := BitVec.ofNat 32 unsignedSum
  (result,
    { n := result.msb
      z := result == 0#32
      c := result.toNat != unsignedSum
      v := result.toInt != signedSum })

/-- `ConditionHolds` (R27). -/
def conditionHolds (cond : BitVec 4) (f : Nzcv) : Bool :=
  let r :=
    if cond.extractLsb' 1 3 = 0b000#3 then f.z
    else if cond.extractLsb' 1 3 = 0b001#3 then f.c
    else if cond.extractLsb' 1 3 = 0b010#3 then f.n
    else if cond.extractLsb' 1 3 = 0b011#3 then f.v
    else if cond.extractLsb' 1 3 = 0b100#3 then f.c && !f.z
    else if cond.extractLsb' 1 3 = 0b101#3 then f.n == f.v
    else if cond.extractLsb' 1 3 = 0b110#3 then f.n == f.v && !f.z
    else true
  if cond.getLsbD 0 && cond != 0b1111#4 then !r else r

/-- `CurrentCond()` (R27): the field `cond` of an A32 instruction; for a T32 one the IT state's condition, AL outside
an IT block, and `none` for the reserved IT states. -/
def currentCond (cond : Option (BitVec 4)) (it : BitVec 8) : Option (BitVec 4) :=
  match cond with
  | some c => some c
  | none =>
    if inITBlock it then some (it.extractLsb' 4 4)
    else if it = 0#8 then some 0b1110#4
    else none

end Sys2Proof.Machine
end

