-- ==== Sys2Proof/Machine/Modes.lean ====
section
/-! DEFINITION. The modes: their encodings and exception levels (R31), the physical registers each sees (R22), the
layout of a program status register (R32). -/

namespace Sys2Proof.Machine

/-- M[4:0] of a mode (R31). -/
def Mode.bits : Mode → BitVec 5
  | .usr => 0b10000#5
  | .fiq => 0b10001#5
  | .irq => 0b10010#5
  | .svc => 0b10011#5
  | .mon => 0b10110#5
  | .abt => 0b10111#5
  | .hyp => 0b11010#5
  | .und => 0b11011#5
  | .sys => 0b11111#5

/-- The mode an M[4:0] names; `none` for the reserved values, all with M[4] = 0 among them (R31). -/
def Mode.ofBits (m : BitVec 5) : Option Mode :=
  if m = 0b10000#5 then some .usr
  else if m = 0b10001#5 then some .fiq
  else if m = 0b10010#5 then some .irq
  else if m = 0b10011#5 then some .svc
  else if m = 0b10110#5 then some .mon
  else if m = 0b10111#5 then some .abt
  else if m = 0b11010#5 then some .hyp
  else if m = 0b11011#5 then some .und
  else if m = 0b11111#5 then some .sys
  else none

/-- The mode is implemented: Hyp needs `HaveEL2`, Monitor needs `HaveEL3` (R31). -/
def Mode.implemented (par : Params) : Mode → Bool
  | .hyp => par.haveEL2
  | .mon => par.haveEL3
  | .usr => true
  | .fiq => true
  | .irq => true
  | .svc => true
  | .abt => true
  | .und => true
  | .sys => true

/-- Secure state below Monitor, "from SCR.NS" (R113); with no EL3 there is none. -/
def secureState (par : Params) (sys : SysCtl) : Bool := par.haveEL3 && !sys.scrNS

/-- The exception level of a mode (R31): EL0 User, EL2 Hyp, EL3 Monitor; the others EL1, or EL3 in Secure state when
EL3 uses AArch32, which `HaveEL3` says. -/
def Mode.level (par : Params) (sys : SysCtl) : Mode → Nat
  | .usr => 0
  | .hyp => 2
  | .mon => 3
  | .fiq => if secureState par sys then 3 else 1
  | .irq => if secureState par sys then 3 else 1
  | .svc => if secureState par sys then 3 else 1
  | .abt => if secureState par sys then 3 else 1
  | .und => if secureState par sys then 3 else 1
  | .sys => if secureState par sys then 3 else 1

/-- Which copy of R13 a mode sees (R22). -/
def Mode.spBank : Mode → SpBank
  | .usr => .usr
  | .sys => .usr
  | .hyp => .hyp
  | .svc => .svc
  | .abt => .abt
  | .und => .und
  | .mon => .mon
  | .irq => .irq
  | .fiq => .fiq

/-- Which copy of R14 a mode sees (R22): Hyp sees `LR_usr`. -/
def Mode.lrBank : Mode → LrBank
  | .usr => .usr
  | .sys => .usr
  | .hyp => .usr
  | .svc => .svc
  | .abt => .abt
  | .und => .und
  | .mon => .mon
  | .irq => .irq
  | .fiq => .fiq

/-- The SPSR of a mode; "User and System have none" (R22). -/
def Mode.spsrBank : Mode → Option SpsrBank
  | .usr => none
  | .sys => none
  | .hyp => some .hyp
  | .svc => some .svc
  | .abt => some .abt
  | .und => some .und
  | .mon => some .mon
  | .irq => some .irq
  | .fiq => some .fiq

/-- The physical register a number names in a mode (R22); `none` for 15, which is no storage register (R20). -/
def physReg (m : Mode) (n : RegNum) : Option PhysReg :=
  if h : n.toNat < 8 then some (.low ⟨n.toNat, h⟩)
  else if h : n.toNat - 8 < 5 then some (.mid (m == .fiq) ⟨n.toNat - 8, h⟩)
  else if n = regSP then some (.sp m.spBank)
  else if n = regLR then some (.lr m.lrBank)
  else none

/-- The 32-bit layout of a saved PSTATE (R32). A field that is not implemented is RES0; J is RES0. -/
def psrOf (par : Params) (p : Pstate) : Word :=
  BitVec.ofBool p.flags.n ++ BitVec.ofBool p.flags.z ++ BitVec.ofBool p.flags.c ++ BitVec.ofBool p.flags.v ++
  BitVec.ofBool p.q ++ p.it.extractLsb' 0 2 ++ 0#1 ++ BitVec.ofBool (par.haveSSBS && p.ssbs) ++
  BitVec.ofBool (par.havePAN && p.pan) ++ BitVec.ofBool (par.haveDIT && p.dit) ++ BitVec.ofBool p.il ++
  p.ge ++ p.it.extractLsb' 2 6 ++ BitVec.ofBool p.e ++ BitVec.ofBool p.a ++ BitVec.ofBool p.i ++
  BitVec.ofBool p.f ++ BitVec.ofBool p.t ++ p.m.bits

end Sys2Proof.Machine
end

