-- ==== Sys2Proof/Machine/Ops.lean ====
section
/-! DEFINITION. The named operations over memory, registers and PSTATE that the meanings share: register access
(R23), Complete (R82), the branch of a PC write (R90 to R93), the exception return (R100 to R104) and the exception
entry (R106, R107). -/

namespace Sys2Proof.Machine

/-! ## Program text (R40) -/

/-- `Fetch(a)`: the byte of the program text at an address. -/
def Memory.read : Memory → Nat → Option Byte
  | [], _ => none
  | (k, b) :: m, a => if k = a then some b else Memory.read m a

/-- Putting a byte into the program text, in its place. No instruction does this: a loader does. -/
def Memory.write : Memory → Nat → Byte → Memory
  | [], a, b => [(a, b)]
  | (k, c) :: m, a, b =>
    if a < k then (a, b) :: (k, c) :: m
    else if a = k then (a, b) :: m
    else (k, c) :: Memory.write m a b

/-- The addresses rise strictly from `lo` on and lie below 2^32. -/
def Memory.risesFrom : Nat → Memory → Bool
  | _, [] => true
  | lo, (k, _) :: m => lo ≤ k && k < 2 ^ 32 && Memory.risesFrom (k + 1) m

/-- The canonical form of the program text: strictly rising addresses of the 32-bit space (R40). -/
def Memory.wf (m : Memory) : Bool := Memory.risesFrom 0 m

/-- Putting bytes at an address and the ones above it; an address outside the 32-bit space takes none. -/
def Memory.writeBytes (m : Memory) (a : Nat) : List Byte → Memory
  | [] => m
  | b :: bs => Memory.writeBytes (if a < 2 ^ 32 then Memory.write m a b else m) (a + 1) bs

/-! ## Registers (R22, R23) -/

/-- The value of a copy of R13. -/
def SpFile.get (f : SpFile) : SpBank → Word
  | .usr => f.usr
  | .hyp => f.hyp
  | .svc => f.svc
  | .abt => f.abt
  | .und => f.und
  | .mon => f.mon
  | .irq => f.irq
  | .fiq => f.fiq

/-- Writing a copy of R13. -/
def SpFile.set (f : SpFile) (b : SpBank) (v : Word) : SpFile :=
  match b with
  | .usr => { f with usr := v }
  | .hyp => { f with hyp := v }
  | .svc => { f with svc := v }
  | .abt => { f with abt := v }
  | .und => { f with und := v }
  | .mon => { f with mon := v }
  | .irq => { f with irq := v }
  | .fiq => { f with fiq := v }

/-- The value of a copy of R14. -/
def LrFile.get (f : LrFile) : LrBank → Word
  | .usr => f.usr
  | .svc => f.svc
  | .abt => f.abt
  | .und => f.und
  | .mon => f.mon
  | .irq => f.irq
  | .fiq => f.fiq

/-- Writing a copy of R14. -/
def LrFile.set (f : LrFile) (b : LrBank) (v : Word) : LrFile :=
  match b with
  | .usr => { f with usr := v }
  | .svc => { f with svc := v }
  | .abt => { f with abt := v }
  | .und => { f with und := v }
  | .mon => { f with mon := v }
  | .irq => { f with irq := v }
  | .fiq => { f with fiq := v }

/-- The value of an SPSR. -/
def SpsrFile.get (f : SpsrFile) : SpsrBank → Word
  | .hyp => f.hyp
  | .svc => f.svc
  | .abt => f.abt
  | .und => f.und
  | .mon => f.mon
  | .irq => f.irq
  | .fiq => f.fiq

/-- The value of a physical register. -/
def RegFile.get (f : RegFile) : PhysReg → Word
  | .low n => f.low[n]
  | .mid fiq n => if fiq then f.midFiq[n] else f.midUsr[n]
  | .sp b => f.sp.get b
  | .lr b => f.lr.get b

/-- Writing a physical register. -/
def RegFile.set (f : RegFile) (p : PhysReg) (v : Word) : RegFile :=
  match p with
  | .low n => { f with low := f.low.set n v }
  | .mid fiq n =>
    if fiq then { f with midFiq := f.midFiq.set n v } else { f with midUsr := f.midUsr.set n v }
  | .sp b => { f with sp := f.sp.set b v }
  | .lr b => { f with lr := f.lr.set b v }

/-- Reading `x[n]` (R23): the current mode's copy; for n = 15 the address of the instruction plus 8 (A32) or 4 (T32),
modulo 2^32. -/
def readReg (isA32 : Bool) (n : RegNum) (s : State) : Word :=
  match physReg s.pstate.m n with
  | some p => s.regs.get p
  | none => s.pc + (if isA32 then 8#32 else 4#32)

/-- Writing `x[n]` (R23): "defined for 0 <= n <= 14 only; stores `v` in the copy rule R22 selects". -/
def writeReg (n : RegNum) (v : Word) (s : State) : State :=
  match physReg s.pstate.m n with
  | some p => { s with regs := s.regs.set p v }
  | none => s

/-! ## PC and PSTATE -/

/-- `pc <- a`. -/
def State.setPc (s : State) (a : Word) : State := { s with pc := a }

/-- `PSTATE.<N,Z,C,V> = f`. -/
def State.setFlags (s : State) (f : Nzcv) : State := { s with pstate := { s.pstate with flags := f } }

/-- `PSTATE.IT <- it`. -/
def State.setIT (s : State) (it : BitVec 8) : State := { s with pstate := { s.pstate with it := it } }

/-- `PSTATE.T <- t`. -/
def State.setT (s : State) (t : Bool) : State := { s with pstate := { s.pstate with t := t } }

/-- The IT state after an instruction that does not load it (R28, R82): advanced after a T32 instruction executed with
PSTATE.IT != 0; an A32 instruction "neither reads nor advances it". -/
def itAfter (x : Decoded) (it : BitVec 8) : BitVec 8 :=
  if !x.isA32 && it != 0#8 then itAdvance it else it

/-- `Complete()` (R82): the PC past the instruction, refused past `0xFFFFFFFF` (R95); the IT state advanced. -/
def complete (x : Decoded) (s : State) : Host.Outcome State Fault Refusal :=
  if s.pc.toNat + x.len < 2 ^ 32 then
    .next ((s.setPc (s.pc + BitVec.ofNat 32 x.len)).setIT (itAfter x s.pstate.it))
  else .refused .pcWrap

/-! ## A branch (R90 to R93) -/

/-- An address with bit 0 cleared. -/
def alignT32 (a : Word) : Word := a.extractLsb' 1 31 ++ 0#1

/-- An address with bits [1:0] cleared. -/
def alignA32 (a : Word) : Word := a.extractLsb' 2 30 ++ 0#2

/-- `BXWritePC` (R91), the interworking branch. A target with bits [1:0] = `10` goes by the parameter
`A32ForceAlignPC`; not given, it is refused (decision D11). -/
def bxWritePC (address : Word) (s : State) : Host.Outcome State Fault Refusal :=
  if address.getLsbD 0 then .next ((s.setT true).setPc (alignT32 address))
  else if !address.getLsbD 1 then .next ((s.setT false).setPc address)
  else
    match s.par.a32ForceAlignPC with
    | .unresolved => .refused (.unpredictable .bxA32Unaligned)
    | .clears => .next ((s.setT false).setPc (alignA32 address))
    | .leaves => .next ((s.setT false).setPc address)

/-- `BranchWritePC` (R92), the non-interworking branch. "no defined form of SUB, SUBS (immediate) reaches it". -/
def branchWritePC (address : Word) (s : State) : Host.Outcome State Fault Refusal :=
  .next (s.setPc (if s.pstate.t then alignT32 address else alignA32 address))

/-- `ALUWritePC` (R90); after a T32 branch the IT state advances (R82). -/
def aluWritePC (x : Decoded) (address : Word) (s : State) : Host.Outcome State Fault Refusal :=
  if x.isA32 then bxWritePC address s
  else branchWritePC address (s.setIT (itAfter x s.pstate.it))

/-! ## Taking an exception (R106, R107) -/

/-- The vector base (R107): "VBAR, or `0xFFFF0000` when high vectors are selected". -/
def vectorBase (sys : SysCtl) : Word := if sys.highVectors then 0xFFFF0000#32 else sys.vbar

/-- Whether an Undefined Instruction exception is taken to Undefined mode, whose entry R107 describes. One taken from
Hyp mode, or from User mode while HCR.TGE is 1 in Non-secure state, goes to Hyp mode, whose entry no rule gives.
Assumption log 11. -/
def takenToUndefinedMode (s : State) : Bool :=
  match s.pstate.m with
  | .hyp => false
  | .usr => !(s.par.haveEL2 && !secureState s.par s.sys && s.sys.hcrTGE)
  | .fiq => true
  | .irq => true
  | .svc => true
  | .mon => true
  | .abt => true
  | .und => true
  | .sys => true

/-- The entry to Undefined mode (R107): SPSR_und and LR_und are saved, M, I, IT, IL, T and E change, the PC goes to
the vector base plus `0x04`. -/
def enterUndefinedMode (isA32 : Bool) (s : State) : State :=
  { s with
    spsr := { s.spsr with und := psrOf s.par s.pstate }
    regs := s.regs.set (.lr .und) (s.pc + (if isA32 then 4#32 else 2#32))
    pstate := { s.pstate with m := .und, i := true, it := 0#8, il := false, t := s.sys.sctlrTE, e := s.sys.sctlrEE }
    pc := vectorBase s.sys + 4#32 }

/-- Taking an Undefined Instruction exception: a terminal fault with the instruction's address and bits (R106,
decision D7), or the entry to Undefined mode where the parameter says that exceptions are entered. -/
def takeUndefinedInstruction (isA32 : Bool) (bits : Word) (s : State) : Host.Outcome State Fault Refusal :=
  match s.par.exceptions with
  | .terminal => .fault (.undefinedInstruction s.pc bits)
  | .entered =>
    if takenToUndefinedMode s then .next (enterUndefinedMode isA32 s)
    else .fault (.undefinedInstruction s.pc bits)

/-! ## The exception return (R100 to R104) -/

/-- `LegalReturn(current mode, spsr)` (R104): the SPSR names an implemented AArch32 mode (so `spsr[4] = 1`) that is not
at a higher exception level, not Hyp in Secure state, not a Non-secure EL1 mode while HCR.TGE is 1, and the parameter
does not reject the pair. -/
def legalReturn (s : State) (spsr : Word) : Bool :=
  match Mode.ofBits (spsr.extractLsb' 0 5) with
  | none => false
  | some m =>
    m.implemented s.par &&
    m.level s.par s.sys ≤ s.pstate.m.level s.par s.sys &&
    !(m == .hyp && secureState s.par s.sys) &&
    !(m.level s.par s.sys == 1 && s.par.haveEL2 && s.sys.hcrTGE) &&
    !s.par.illegalReturns.contains (s.pstate.m, spsr)

/-- The parameter `ITD` for the level returned to (R4, R103, R113): HSCTLR.ITD for Hyp mode, else SCTLR.ITD. -/
def itdOf (sys : SysCtl) (m : Mode) : Bool := if m == .hyp then sys.hsctlrITD else sys.sctlrITD

/-- The IT bits of an SPSR, `IT[7:2] : IT[1:0]` (R32, R103). -/
def spsrIT (spsr : Word) : BitVec 8 := spsr.extractLsb' 10 6 ++ spsr.extractLsb' 25 2

/-- `RestoredIT` with PSTATE.IL = 0 (R103). -/
def restoredIT (itd t : Bool) (it : BitVec 8) : BitVec 8 :=
  if itReserved it then 0#8
  else if !t && it != 0#8 then 0#8
  else if itd && it.extractLsb' 0 3 != 0b000#3 then 0#8
  else it

/-- `SetPSTATEFromPSR` (R103). `legal` is LegalReturn's answer and `v` the draw whose bits settle what the rule leaves
open: bit 0 the choice of T and bit 1 that of IT when PSTATE.IL is 1, bit 4 SSBS after an illegal return, bit 5 SS while
software step is active. -/
def setPstateFromPSR (par : Params) (sys : SysCtl) (legal : Bool) (v spsr : Word) (p : Pstate) : Pstate :=
  let il := if legal then spsr.getLsbD 20 else true
  let m := if legal then (Mode.ofBits (spsr.extractLsb' 0 5)).getD p.m else p.m
  let t := if il then v.getLsbD 0 && spsr.getLsbD 5 else spsr.getLsbD 5
  { flags := ⟨spsr.getLsbD 31, spsr.getLsbD 30, spsr.getLsbD 29, spsr.getLsbD 28⟩
    q := spsr.getLsbD 27
    ge := spsr.extractLsb' 16 4
    it := if il then (if v.getLsbD 1 then spsrIT spsr else 0#8) else restoredIT (itdOf sys m) t (spsrIT spsr)
    e := spsr.getLsbD 9
    a := spsr.getLsbD 8
    i := spsr.getLsbD 7
    f := spsr.getLsbD 6
    t := t
    m := m
    il := il
    ss := if par.softwareStep then v.getLsbD 5 else false
    pan := if par.havePAN then spsr.getLsbD 22 else p.pan
    ssbs := if par.haveSSBS then (if legal then spsr.getLsbD 23 else v.getLsbD 4) else p.ssbs
    dit := if par.haveDIT then spsr.getLsbD 21 else p.dit }

/-- The PC an exception return gives (R102): aligned for the restored instruction set; bits [1:0] UNKNOWN (bits 3:2 of
the draw) when the restored PSTATE.IL is 1. -/
def returnPc (v : Word) (p : Pstate) (newPc : Word) : Word :=
  if p.il then newPc.extractLsb' 2 30 ++ v.extractLsb' 2 2
  else if p.t then alignT32 newPc
  else alignA32 newPc

/-- The state an exception return leaves (R102, R103): PSTATE restored, the PC aligned, the local exclusive monitor
cleared and the event register set (R34). The registers and the SPSRs are not written (R102, R109). -/
def returnState (legal : Bool) (newPc spsr : Word) (s : State) : State :=
  let v := Config.freeValue s.draws
  let p := setPstateFromPSR s.par s.sys legal v spsr s.pstate
  { s with pstate := p, pc := returnPc v p newPc, exclusive := false, event := true, draws := s.draws + 1 }

/-- `ExceptionReturn(new_pc, spsr)` (R102). An illegal return is a terminal fault (R104, decision D10), or goes on into
the Illegal Execution state where the parameter says that exceptions are entered. -/
def exceptionReturn (newPc spsr : Word) (s : State) : Host.Outcome State Fault Refusal :=
  if legalReturn s spsr then .next (returnState true newPc spsr s)
  else
    match s.par.exceptions with
    | .terminal => .fault (.illegalReturn s.pc)
    | .entered => .next (returnState false newPc spsr s)

/-- SUBS with destination PC in User or System mode (R101), by the parameter `ALUExcReturnUserSys`; not given, it is
refused (decision D8). -/
def userSysReturn (x : Decoded) (s : State) : Host.Outcome State Fault Refusal :=
  match s.par.aluExcReturnUserSys with
  | .unresolved => .refused (.unpredictable .excReturnUserSys)
  | .undefined => takeUndefinedInstruction x.isA32 x.bits s
  | .nop => complete x s

/-- `ALUExceptionReturn(address)` (R100): UNDEFINED in Hyp mode, R101 in User and System mode, else the return from the
current mode's SPSR. -/
def aluExceptionReturn (x : Decoded) (address : Word) (s : State) : Host.Outcome State Fault Refusal :=
  if s.pstate.m = .hyp then takeUndefinedInstruction x.isA32 x.bits s
  else
    match s.pstate.m.spsrBank with
    | none => userSysReturn x s
    | some b => exceptionReturn address (s.spsr.get b) s

/-! ## The Operation (R70) -/

/-- Writing the result of an instruction whose destination is not the PC, with the flags where `setflags` says so
(R70, R26). -/
def writeResult (x : Decoded) (result : Word) (nzcv : Nzcv) (s : State) : State :=
  if x.setflags then (writeReg x.d result s).setFlags nzcv else writeReg x.d result s

/-- What the Operation does once the condition passed (R70). -/
def executePassed (x : Decoded) (s : State) : Host.Outcome State Fault Refusal :=
  let r := addWithCarry (readReg x.isA32 x.n s) (~~~x.imm32) true
  if x.d = regPC then
    if x.setflags then aluExceptionReturn x r.1 s else aluWritePC x r.1 s
  else complete x (writeResult x r.1 r.2 s)

/-- The Operation all encodings share (R70, R80): the condition, a reserved IT state refused (R27); failed, the
instruction only completes. -/
def subImmediate (x : Decoded) (s : State) : Host.Outcome State Fault Refusal :=
  match currentCond x.cond s.pstate.it with
  | none => .refused (.unpredictable .itReserved)
  | some c => if conditionHolds c s.pstate.flags then executePassed x s else complete x s

end Sys2Proof.Machine
end

