-- ==== Sys2Proof/Machine/SubA32.lean ====
section
/-! DEFINITION. The A32 encodings: SUB A1 (R72) and SUBS A1 (R73). -/

namespace Sys2Proof.Machine

/-- SUB, encoding A1 (R72): no flags; with Rd = PC an interworking branch. -/
def execSubA1 (cond : BitVec 4) (rn rd : RegNum) (imm12 : BitVec 12) (s : State) :
    Host.Outcome State Fault Refusal :=
  subImmediate (decodedA1 false (.subA1 cond rn rd imm12) cond rn rd imm12) s

/-- SUBS, encoding A1 (R73): the four flags; with Rd = PC an exception return. -/
def execSubsA1 (cond : BitVec 4) (rn rd : RegNum) (imm12 : BitVec 12) (s : State) :
    Host.Outcome State Fault Refusal :=
  subImmediate (decodedA1 true (.subsA1 cond rn rd imm12) cond rn rd imm12) s

end Sys2Proof.Machine
end

