-- ==== Sys2Proof/Machine/SubT32.lean ====
section
/-! DEFINITION. The T32 encodings that write a general-purpose register: T1 (R74), T2 (R75), T3 (R76, R77), T4 (R78). -/

namespace Sys2Proof.Machine

/-- SUB / SUBS, encoding T1 (R74): the flags are written outside an IT block only. -/
def execSubT1 (imm3 rn rd : BitVec 3) (s : State) : Host.Outcome State Fault Refusal :=
  subImmediate (decodedT1 imm3 rn rd s.pstate.it) s

/-- SUB / SUBS, encoding T2 (R75): the flags are written outside an IT block only. -/
def execSubT2 (rdn : BitVec 3) (imm8 : BitVec 8) (s : State) : Host.Outcome State Fault Refusal :=
  subImmediate (decodedT2 rdn imm8 s.pstate.it) s

/-- SUB, encoding T3 (R76): no flags. -/
def execSubT3 (i : BitVec 1) (rn : RegNum) (imm3 : BitVec 3) (rd : RegNum) (imm8 : BitVec 8) (s : State) :
    Host.Outcome State Fault Refusal :=
  subImmediate (decodedT3 false (.subT3 i rn imm3 rd imm8) i rn imm3 rd imm8) s

/-- SUBS, encoding T3 (R77): the four flags, inside an IT block too. -/
def execSubsT3 (i : BitVec 1) (rn : RegNum) (imm3 : BitVec 3) (rd : RegNum) (imm8 : BitVec 8) (s : State) :
    Host.Outcome State Fault Refusal :=
  subImmediate (decodedT3 true (.subsT3 i rn imm3 rd imm8) i rn imm3 rd imm8) s

/-- SUB / SUBW, encoding T4 (R78): no flags, a plain 12-bit immediate. -/
def execSubwT4 (i : BitVec 1) (rn : RegNum) (imm3 : BitVec 3) (rd : RegNum) (imm8 : BitVec 8) (s : State) :
    Host.Outcome State Fault Refusal :=
  subImmediate (decodedT4 i rn imm3 rd imm8) s

end Sys2Proof.Machine
end

