-- ==== Sys2Proof/Machine/SubsPcLr.lean ====
section
/-! DEFINITION. The exception return SUBS PC, LR, encoding T5 (R79). -/

namespace Sys2Proof.Machine

/-- SUBS PC, LR, encoding T5 (R79). "if InITBlock() && !LastInITBlock() then UNPREDICTABLE" (R62) is decode and comes
before the condition (R14, R111). -/
def execSubsPcLrT5 (rn : RegNum) (imm8 : BitVec 8) (s : State) : Host.Outcome State Fault Refusal :=
  if inITBlock s.pstate.it && !lastInITBlock s.pstate.it then .refused (.unpredictable .t5NotLastInIT)
  else subImmediate (decodedT5 rn imm8) s

end Sys2Proof.Machine
end

