-- ==== Sys2Proof/Machine/Dispatch.lean ====
section
/-! DEFINITION. exec: one arm per row of spec/opcode_table.json. -/

namespace Sys2Proof.Machine

def exec (i : Instr) (s : State) : Host.Outcome State Fault Refusal :=
  match i with
  | .subA1 cond rn rd imm12 => Sys2Proof.Machine.execSubA1 cond rn rd imm12 s
  | .subsA1 cond rn rd imm12 => Sys2Proof.Machine.execSubsA1 cond rn rd imm12 s
  | .subT1 imm3 rn rd => Sys2Proof.Machine.execSubT1 imm3 rn rd s
  | .subT2 rdn imm8 => Sys2Proof.Machine.execSubT2 rdn imm8 s
  | .subT3 b rn imm3 rd imm8 => Sys2Proof.Machine.execSubT3 b rn imm3 rd imm8 s
  | .subsT3 b rn imm3 rd imm8 => Sys2Proof.Machine.execSubsT3 b rn imm3 rd imm8 s
  | .subwT4 b rn imm3 rd imm8 => Sys2Proof.Machine.execSubwT4 b rn imm3 rd imm8 s
  | .subsPcLrT5 rn imm8 => Sys2Proof.Machine.execSubsPcLrT5 rn imm8 s

end Sys2Proof.Machine
end

