-- ==== Sys2Proof/Machine/Fetch.lean ====
section
/-! DEFINITION. The fetch of an instruction's bytes (R40, R42 to R45, R66), the refusals of the decoder as outcomes of a
step, and the loader's side of withFetchWord. -/

namespace Sys2Proof.Machine

/-- Fetching a T32 instruction's bytes (R44): one halfword, then a second when the first says so (R66). -/
def fetchT32 (s : State) : Host.Outcome (List Byte) Fault Refusal :=
  match s.mem.read s.pc.toNat, s.mem.read (s.pc.toNat + 1) with
  | some b0, some b1 =>
    if isT32Long (halfOf b0 b1) then
      match s.mem.read (s.pc.toNat + 2), s.mem.read (s.pc.toNat + 3) with
      | some b2, some b3 => .next [b0, b1, b2, b3]
      | _, _ => .fault (.fetchAbort (s.pc + 2#32))
    else .next [b0, b1]
  | _, _ => .fault (.fetchAbort s.pc)

/-- Fetching an A32 instruction's four bytes (R42, R44). -/
def fetchA32 (s : State) : Host.Outcome (List Byte) Fault Refusal :=
  match s.mem.read s.pc.toNat, s.mem.read (s.pc.toNat + 1), s.mem.read (s.pc.toNat + 2),
    s.mem.read (s.pc.toNat + 3) with
  | some b0, some b1, some b2, some b3 => .next [b0, b1, b2, b3]
  | _, _, _, _ => .fault (.fetchAbort s.pc)

/-- The fetch at the PC (R43, R111): the alignment first, then the bytes. An odd T32 address is refused, an A32
address that is no multiple of 4 faults. -/
def fetch (s : State) : Host.Outcome (List Byte) Fault Refusal :=
  if s.pstate.t then
    if s.pc.getLsbD 0 then .refused .illFormedLaunch else fetchT32 s
  else
    if s.pc.extractLsb' 0 2 ≠ 0#2 then .fault (.pcAlignment s.pc) else fetchA32 s

/-- The name under which a step refuses what the decoder rejects (R16). The fetch gives every byte the decoder asks
for; a missing one would be a FetchAbort. -/
def rejected (pc : Word) : Reject → Host.Outcome State Fault Refusal
  | .notThisInstruction t => .refused (.notThisInstruction t)
  | .unpredictable .t3Rd15Sub => .refused (.unpredictable .t3Rd15Sub)
  | .unpredictable .t3Rn15 => .refused (.unpredictable .t3Rn15)
  | .unpredictable .t4Rd15 => .refused (.unpredictable .t4Rd15)
  | .unpredictable .t5RnNotLR => .refused (.unpredictable .t5RnNotLR)
  | .shouldBeBits => .refused .shouldBeBits
  | .t32ExpandImmZeroByte => .refused .t32ExpandImmZeroByte
  | .truncated => .fault (.fetchAbort pc)

/-- Fetched bytes as one number, `hw1:hw2` or the A32 word (R50), for the info of an Undefined Instruction exception
(R106). -/
def fetchedBits (t32 : Bool) : List Byte → Word
  | [b0, b1] => (halfOf b0 b1).setWidth 32
  | [b0, b1, b2, b3] => if t32 then halfOf b0 b1 ++ halfOf b2 b3 else wordOf b0 b1 b2 b3
  | _ => 0#32

/-- The state in which the next step runs the instruction of the given bytes: the bytes stand where the fetch reads,
the instruction set is theirs, the PC is aligned for it, and PSTATE.IL is 0. -/
def State.placeInstr (s : State) (t32 : Bool) (bytes : List Byte) : State :=
  let a := if t32 then alignT32 s.pc else alignA32 s.pc
  { s with pc := a, pstate := { s.pstate with t := t32, il := false }, mem := s.mem.writeBytes a.toNat bytes }

end Sys2Proof.Machine
end

