-- ==== Sys2Proof/Machine/Step.lean ====
section
/-! DEFINITION. One step of the PE, in the order of R111: fetch, decode, and the instruction's own order after that. In
the Illegal Execution state the step takes an Undefined Instruction exception instead of executing (R104). -/

namespace Sys2Proof.Machine

/-- One step (R16, R111). -/
def step (s : State) : Host.Outcome State Fault Refusal :=
  match fetch s with
  | .fault r => .fault r
  | .refused r => .refused r
  | .next bytes =>
    if s.pstate.il then takeUndefinedInstruction (!s.pstate.t) (fetchedBits s.pstate.t bytes) s
    else
      match decode s.pstate.t bytes with
      | .error e => rejected s.pc e
      | .ok (i, _) => exec i s

/-- `s` with the instruction of a table word placed where step fetches its next instruction. -/
def State.withFetchWord (s : State) (nbits w : Nat) : State :=
  s.placeInstr (tableIsT32 nbits w) (tableBytes nbits w)

end Sys2Proof.Machine
end

