-- ==== Sys2Proof/Safety.lean ====
section
/-! DEFINITION. What claims speak of: the outcomes read apart, the well-formed launch states (R120), the invariant a
step keeps, the end of a run (R122), the closed form of the subtraction (R71), and which registers a mode sees (R22). -/

namespace Sys2Proof.Machine

/-- The next state of an outcome, where it is one. -/
def nextOf {σ φ ρ : Type} : Host.Outcome σ φ ρ → Option σ
  | .next s => some s
  | .fault _ => none
  | .refused _ => none

/-- The fault of an outcome, where it is one. -/
def faultOf {σ φ ρ : Type} : Host.Outcome σ φ ρ → Option φ
  | .next _ => none
  | .fault r => some r
  | .refused _ => none

/-- The refusal of an outcome, where it is one. -/
def refusalOf {σ φ ρ : Type} : Host.Outcome σ φ ρ → Option ρ
  | .next _ => none
  | .fault _ => none
  | .refused r => some r

/-- An outcome with its next state changed. -/
def mapNext {σ φ ρ : Type} (f : σ → σ) : Host.Outcome σ φ ρ → Host.Outcome σ φ ρ
  | .next s => .next (f s)
  | .fault r => .fault r
  | .refused r => .refused r

/-! ## The subtraction in closed form (R71) -/

/-- N, Z, C, V of `a - b` (R71): the result's top bit; `a == b`; "no borrow", `a >= b` unsigned; the exact signed
difference outside the signed range. -/
def subFlags (a b : Word) : Nzcv :=
  { n := (a - b).msb
    z := a == b
    c := decide (b.toNat ≤ a.toNat)
    v := decide (a.toInt - b.toInt < -2 ^ 31 ∨ 2 ^ 31 - 1 < a.toInt - b.toInt) }

/-! ## Conditions -/

/-- `ConditionPassed()` (R27), false where the IT state is reserved. -/
def conditionPassed (cond : Option (BitVec 4)) (s : State) : Bool :=
  match currentCond cond s.pstate.it with
  | some c => conditionHolds c s.pstate.flags
  | none => false

/-- The condition field an instruction carries: an A32 one its `cond`, a T32 one none (R27). -/
def condField : Instr → Option (BitVec 4)
  | .subA1 cond _ _ _ => some cond
  | .subsA1 cond _ _ _ => some cond
  | .subT1 .. => none
  | .subT2 .. => none
  | .subT3 .. => none
  | .subsT3 .. => none
  | .subwT4 .. => none
  | .subsPcLrT5 .. => none

/-- The instruction is a SUBS with destination PC (R100): SUBS A1 with Rd = `1111`, or T5. -/
def isSubsPc : Instr → Bool
  | .subA1 .. => false
  | .subsA1 _ _ rd _ => rd == regPC
  | .subT1 .. => false
  | .subT2 .. => false
  | .subT3 .. => false
  | .subsT3 .. => false
  | .subwT4 .. => false
  | .subsPcLrT5 .. => true

/-- The state after an instruction whose condition failed, or that executes as a NOP: the PC past it, the IT state
advanced after a T32 instruction (R80, R82). -/
def passedOver (i : Instr) (s : State) : State :=
  { s with
    pc := s.pc + BitVec.ofNat 32 i.length
    pstate := { s.pstate with it := if !i.isA32 && s.pstate.it != 0#8 then itAdvance s.pstate.it else s.pstate.it } }

/-- The state after a subtraction that wrote `v` to register number `d` (not the PC), with flags `f` where given: the
current mode's copy of the register, the flags, the PC and the IT state, and nothing else (R36). -/
def resultState (i : Instr) (d : RegNum) (v : Word) (f : Option Nzcv) (s : State) : State :=
  { s with
    regs := match physReg s.pstate.m d with
      | some p => s.regs.set p v
      | none => s.regs
    pc := s.pc + BitVec.ofNat 32 i.length
    pstate := { s.pstate with
      flags := f.getD s.pstate.flags
      it := if !i.isA32 && s.pstate.it != 0#8 then itAdvance s.pstate.it else s.pstate.it } }

/-- The destination register number of an instruction (R57); 15 for T5, "constant integer d = 15". -/
def destOf : Instr → RegNum
  | .subA1 _ _ rd _ => rd
  | .subsA1 _ _ rd _ => rd
  | .subT1 _ _ rd => rd.setWidth 4
  | .subT2 rdn _ => rdn.setWidth 4
  | .subT3 _ _ _ rd _ => rd
  | .subsT3 _ _ _ rd _ => rd
  | .subwT4 _ _ _ rd _ => rd
  | .subsPcLrT5 _ _ => regPC

/-- `setflags` of an instruction in an IT state (R60). -/
def setsFlags (it : BitVec 8) : Instr → Bool
  | .subA1 .. => false
  | .subsA1 .. => true
  | .subT1 .. => !inITBlock it
  | .subT2 .. => !inITBlock it
  | .subT3 .. => false
  | .subsT3 .. => true
  | .subwT4 .. => false
  | .subsPcLrT5 .. => true

/-- The value an instruction subtracts from (R23, R57), in a state: register Rn, or the PC read. -/
def operandOf (s : State) : Instr → Word
  | .subA1 _ rn _ _ => readReg true rn s
  | .subsA1 _ rn _ _ => readReg true rn s
  | .subT1 _ rn _ => readReg false (rn.setWidth 4) s
  | .subT2 rdn _ => readReg false (rdn.setWidth 4) s
  | .subT3 _ rn _ _ _ => readReg false rn s
  | .subsT3 _ rn _ _ _ => readReg false rn s
  | .subwT4 _ rn _ _ _ => readReg false rn s
  | .subsPcLrT5 rn _ => readReg false rn s

/-- `imm32` of an instruction (R58). -/
def immOf : Instr → Word
  | .subA1 _ _ _ imm12 => a32ExpandImm imm12
  | .subsA1 _ _ _ imm12 => a32ExpandImm imm12
  | .subT1 imm3 _ _ => imm3.setWidth 32
  | .subT2 _ imm8 => imm8.setWidth 32
  | .subT3 i _ imm3 _ imm8 => t32ExpandImm (i ++ imm3 ++ imm8)
  | .subsT3 i _ imm3 _ imm8 => t32ExpandImm (i ++ imm3 ++ imm8)
  | .subwT4 i _ imm3 _ imm8 => (i ++ imm3 ++ imm8).setWidth 32
  | .subsPcLrT5 _ imm8 => imm8.setWidth 32

/-- The instruction passes R62's test on the IT state: T5 stands outside an IT block or last in one. -/
def itPlaceOk (it : BitVec 8) : Instr → Bool
  | .subA1 .. => true
  | .subsA1 .. => true
  | .subT1 .. => true
  | .subT2 .. => true
  | .subT3 .. => true
  | .subsT3 .. => true
  | .subwT4 .. => true
  | .subsPcLrT5 .. => !inITBlock it || lastInITBlock it

/-- What an exception return by `spsr` to `target` leaves, the restored PSTATE.IL apart (R102, R103): the fields of
PSTATE the SPSR gives, the PC aligned for the restored instruction set when IL is 0 and equal to the target but for
bits [1:0] when IL is 1, the local exclusive monitor cleared and the event register set; T and IT as R103 gives them,
each one of the two permitted values when IL is 1; everything else as it was. -/
structure ReturnLeaves (s t : State) (target spsr : Word) : Prop where
  flags : t.pstate.flags = ⟨spsr.getLsbD 31, spsr.getLsbD 30, spsr.getLsbD 29, spsr.getLsbD 28⟩
  q : t.pstate.q = spsr.getLsbD 27
  ge : t.pstate.ge = spsr.extractLsb' 16 4
  e : t.pstate.e = spsr.getLsbD 9
  a : t.pstate.a = spsr.getLsbD 8
  i : t.pstate.i = spsr.getLsbD 7
  f : t.pstate.f = spsr.getLsbD 6
  dit : t.pstate.dit = if s.par.haveDIT then spsr.getLsbD 21 else s.pstate.dit
  pan : t.pstate.pan = if s.par.havePAN then spsr.getLsbD 22 else s.pstate.pan
  ss : s.par.softwareStep = false → t.pstate.ss = false
  tLegal : t.pstate.il = false → t.pstate.t = spsr.getLsbD 5
  tIllegal : t.pstate.il = true → t.pstate.t = false ∨ t.pstate.t = spsr.getLsbD 5
  itZeroed : t.pstate.il = false → itReserved (spsrIT spsr) = true → t.pstate.it = 0#8
  itA32 : t.pstate.il = false → t.pstate.t = false → t.pstate.it = 0#8
  itRestricted : t.pstate.il = false → itdOf s.sys t.pstate.m = true →
    (spsrIT spsr).extractLsb' 0 3 ≠ 0#3 → t.pstate.it = 0#8
  itKept : t.pstate.il = false → itReserved (spsrIT spsr) = false → t.pstate.t = true →
    (itdOf s.sys t.pstate.m = false ∨ (spsrIT spsr).extractLsb' 0 3 = 0#3) → t.pstate.it = spsrIT spsr
  itIllegal : t.pstate.il = true → t.pstate.it = 0#8 ∨ t.pstate.it = spsrIT spsr
  pcT32 : t.pstate.il = false → t.pstate.t = true → t.pc = target &&& 0xFFFFFFFE#32
  pcA32 : t.pstate.il = false → t.pstate.t = false → t.pc = target &&& 0xFFFFFFFC#32
  pcIllegal : t.pstate.il = true → t.pc &&& 0xFFFFFFFC#32 = target &&& 0xFFFFFFFC#32
  monitor : t.exclusive = false
  event : t.event = true
  regs : t.regs = s.regs
  spsrs : t.spsr = s.spsr
  elrHyp : t.elrHyp = s.elrHyp
  mem : t.mem = s.mem
  sys : t.sys = s.sys
  par : t.par = s.par

/-! ## Which registers a mode sees (R22) -/

/-- Some register number names the physical register in the mode. -/
def seenIn (m : Mode) (p : PhysReg) : Prop := ∃ n : RegNum, physReg m n = some p

/-! ## Launch states and the invariant -/

/-- The well-formed launch states (R120): T = 0 implies IT = 0; T = 1 implies `pc[0]` = 0; IT is not reserved; the mode
is an implemented one (and one of the nine, by its type); IL = 0. -/
def launchOk (s : State) : Bool :=
  (s.pstate.t || s.pstate.it == 0#8) &&
  (!s.pstate.t || !s.pc.getLsbD 0) &&
  !itReserved s.pstate.it &&
  s.pstate.m.implemented s.par &&
  !s.pstate.il

/-- What every step keeps: the program text in canonical form, an implemented mode, a word-aligned VBAR, and R120's
conditions on T, IT and the PC whenever IL = 0. In the Illegal Execution state T, IT and PC[1:0] hold what the illegal
return left, free values among them (R103, R104), and nothing executes from there. -/
structure Inv (s : State) : Prop where
  mem : s.mem.wf = true
  mode : s.pstate.m.implemented s.par = true
  vbar : s.sys.vbar.extractLsb' 0 2 = 0#2
  itA32 : s.pstate.il = false → s.pstate.t = false → s.pstate.it = 0#8
  pcT32 : s.pstate.il = false → s.pstate.t = true → s.pc.getLsbD 0 = false
  itKind : s.pstate.il = false → itReserved s.pstate.it = false

/-- An A32 instruction address is a multiple of 4 (R24, R43). It is kept by every step of a machine whose branches do
not leave bit 1 of an A32 target set. -/
def PcAligned (s : State) : Prop :=
  s.pstate.il = false → s.pstate.t = false → s.pc.extractLsb' 0 2 = 0#2

/-! ## The end of a run (R122) -/

/-- The run to `Exit` under fuel (R122): it ends when the PC equals `exit`; `none` where the fuel ends first. -/
def runTo (exit : Word) : Nat → State → Option (Host.Outcome State Fault Refusal)
  | 0, s => if s.pc = exit then some (.next s) else none
  | k + 1, s =>
    if s.pc = exit then some (.next s)
    else
      match step s with
      | .next t => runTo exit k t
      | .fault r => some (.fault r)
      | .refused r => some (.refused r)

/-- A safe run: it reaches `exit` with no fault and no refusal recorded (R122). -/
def safeRun (exit : Word) (fuel : Nat) (s : State) : Prop := ∃ t, runTo exit fuel s = some (.next t)

end Sys2Proof.Machine
end

