-- ==== Sys2Proof/Certificates/Slice0/Obligations.lean ====
section
/-! DEFINITION. The statements for the provers, each over all states and operands its docstring names. Those whose
docstring says MODEL'S CHOICE rest on a log entry and not on a rule. -/

open Sys2Proof Sys2Proof.Machine

/-! ## Encoding -/

/-- Words written out from the spec's layouts decode to the instructions they stand for, at least one per encoding
(R51 to R56): `E2410001` is `1110 0010 0100 0001 0000 0000 0000 0001`, and so on. -/
def Obligations.WrittenWordsDecode : Prop :=
  decodeA32 0b1110_0010_0100_0001_0000_0000_0000_0001#32 = .ok (.subA1 14#4 1#4 0#4 1#12) ∧
  decodeA32 0b0000_0010_0100_0100_0100_0000_1111_1111#32 = .ok (.subA1 0#4 4#4 4#4 0xFF#12) ∧
  decodeA32 0b1110_0010_0101_1110_1111_0000_0000_0100#32 = .ok (.subsA1 14#4 14#4 15#4 4#12) ∧
  decodeT16 0b0001_1110_0100_1000#16 = .ok (.subT1 1#3 1#3 0#3) ∧
  decodeT16 0b0011_1111_1111_1111#16 = .ok (.subT2 7#3 0xFF#8) ∧
  decodeT32 0b1111_0001_1010_1011_0100_1010_0111_1111#32 = .ok (.subT3 0#1 11#4 4#3 10#4 0x7F#8) ∧
  decodeT32 0b1111_0001_1011_1001_0001_1000_1010_1011#32 = .ok (.subsT3 0#1 9#4 1#3 8#4 0xAB#8) ∧
  decodeT32 0b1111_0110_1010_0100_0111_0100_1111_1111#32 = .ok (.subwT4 1#1 4#4 7#3 4#4 0xFF#8) ∧
  decodeT32 0b1111_0011_1101_1110_1000_1111_0000_0100#32 = .ok (.subsPcLrT5 14#4 4#8)

/-- Decoding the bytes of an encoded well-formed instruction gives it back, with every operand at every value the
encoding admits, and leaves the bytes after it (R50 to R58). -/
def Obligations.EncodeThenDecode : Prop :=
  ∀ (i : Instr) (rest : List Byte), i.wf = true → decode (!i.isA32) (encode i ++ rest) = .ok (i, rest)

/-- Whatever bytes the decoder accepts are those of the instruction it answers, which is well-formed and of the
instruction set PSTATE.T selects: each word has one meaning (R50 to R65). -/
def Obligations.DecodeThenEncode : Prop :=
  ∀ (t32 : Bool) (bytes rest : List Byte) (i : Instr), decode t32 bytes = .ok (i, rest) →
    i.wf = true ∧ i.isA32 = !t32 ∧ bytes = encode i ++ rest

/-- Every A32 word by the opcode table's mask and match (R51) and its exclusions (R61, R64). -/
def Obligations.A32WordsDecodeByMask : Prop :=
  ∀ w : Word,
    (¬(w &&& 0x0FE00000#32 = 0x02400000#32) → decodeA32 w = .error (.notThisInstruction .noMatch)) ∧
    (w.extractLsb' 28 4 = 0b1111#4 → decodeA32 w = .error (.notThisInstruction .noMatch)) ∧
    (w &&& 0x0FE00000#32 = 0x02400000#32 → w.extractLsb' 28 4 ≠ 0b1111#4 →
      (w.extractLsb' 16 4 = 0b1101#4 → decodeA32 w = .error (.notThisInstruction .subSpMinusImmediate)) ∧
      (w.getLsbD 20 = false → w.extractLsb' 16 4 = 0b1111#4 →
        decodeA32 w = .error (.notThisInstruction .adr)) ∧
      (w.getLsbD 20 = false → w.extractLsb' 16 4 ≠ 0b1101#4 → w.extractLsb' 16 4 ≠ 0b1111#4 →
        decodeA32 w =
          .ok (.subA1 (w.extractLsb' 28 4) (w.extractLsb' 16 4) (w.extractLsb' 12 4) (w.extractLsb' 0 12))) ∧
      (w.getLsbD 20 = true → w.extractLsb' 16 4 ≠ 0b1101#4 →
        decodeA32 w =
          .ok (.subsA1 (w.extractLsb' 28 4) (w.extractLsb' 16 4) (w.extractLsb' 12 4) (w.extractLsb' 0 12))))

/-- Every T32 halfword by the masks and matches of T1 (R52) and T2 (R53): no field value is excluded, and every other
16-bit pattern is no instruction of this spec (R65). -/
def Obligations.T16HalfwordsDecodeByMask : Prop :=
  ∀ hw : Half,
    (hw &&& 0xFE00#16 = 0x1E00#16 →
      decodeT16 hw = .ok (.subT1 (hw.extractLsb' 6 3) (hw.extractLsb' 3 3) (hw.extractLsb' 0 3))) ∧
    (hw &&& 0xF800#16 = 0x3800#16 → decodeT16 hw = .ok (.subT2 (hw.extractLsb' 8 3) (hw.extractLsb' 0 8))) ∧
    (¬(hw &&& 0xFE00#16 = 0x1E00#16) → ¬(hw &&& 0xF800#16 = 0x3800#16) →
      decodeT16 hw = .error (.notThisInstruction .noMatch))

/-- Every T32 pair in T3's mask and match (R54): the SEE exits before the zero replicated byte before the
UNPREDICTABLE tests (R59, R61, R62, R111), else the variant S names with the fields of R54. MODEL'S CHOICE (log 17): a
word with both Rd and Rn = PC and S = 0 is refused under the name of the Rd test, where R62 gives one test and two
names. -/
def Obligations.T3WordsDecodeByMask : Prop :=
  ∀ w : Word, w &&& 0xFBE08000#32 = 0xF1A00000#32 →
    let rn := w.extractLsb' 16 4
    let rd := w.extractLsb' 8 4
    let zeroByte := w &&& 0x04004000#32 = 0#32 ∧ w &&& 0x00003000#32 ≠ 0#32 ∧ w &&& 0x000000FF#32 = 0#32
    (rd = 0b1111#4 → w.getLsbD 20 = true → decodeT32 w = .error (.notThisInstruction .cmpImmediate)) ∧
    (rn = 0b1101#4 → (rd = 0b1111#4 → w.getLsbD 20 = false) →
      decodeT32 w = .error (.notThisInstruction .subSpMinusImmediate)) ∧
    (rn ≠ 0b1101#4 → (rd = 0b1111#4 → w.getLsbD 20 = false) → zeroByte →
      decodeT32 w = .error .t32ExpandImmZeroByte) ∧
    (rn ≠ 0b1101#4 → ¬zeroByte → rd = 0b1111#4 → w.getLsbD 20 = false →
      decodeT32 w = .error (.unpredictable .t3Rd15Sub)) ∧
    (¬zeroByte → rd ≠ 0b1111#4 → rn = 0b1111#4 → decodeT32 w = .error (.unpredictable .t3Rn15)) ∧
    (¬zeroByte → rd ≠ 0b1111#4 → rn ≠ 0b1101#4 → rn ≠ 0b1111#4 →
      decodeT32 w = .ok (if w.getLsbD 20
        then .subsT3 (w.extractLsb' 26 1) rn (w.extractLsb' 12 3) rd (w.extractLsb' 0 8)
        else .subT3 (w.extractLsb' 26 1) rn (w.extractLsb' 12 3) rd (w.extractLsb' 0 8)))

/-- Every T32 pair in T4's or T5's mask and match (R55, R56, R61, R62, R63), and every pair in none of the three
(R65). -/
def Obligations.T4T5WordsDecodeByMask : Prop :=
  ∀ w : Word,
    let rn := w.extractLsb' 16 4
    (w &&& 0xFBF08000#32 = 0xF2A00000#32 →
      (rn = 0b1111#4 → decodeT32 w = .error (.notThisInstruction .adr)) ∧
      (rn = 0b1101#4 → decodeT32 w = .error (.notThisInstruction .subSpMinusImmediate)) ∧
      (rn ≠ 0b1111#4 → rn ≠ 0b1101#4 → w.extractLsb' 8 4 = 0b1111#4 →
        decodeT32 w = .error (.unpredictable .t4Rd15)) ∧
      (rn ≠ 0b1111#4 → rn ≠ 0b1101#4 → w.extractLsb' 8 4 ≠ 0b1111#4 →
        decodeT32 w =
          .ok (.subwT4 (w.extractLsb' 26 1) rn (w.extractLsb' 12 3) (w.extractLsb' 8 4) (w.extractLsb' 0 8)))) ∧
    (w &&& 0xFFF0D000#32 = 0xF3D08000#32 →
      (rn = 0b1110#4 → w.extractLsb' 0 8 = 0#8 → decodeT32 w = .error (.notThisInstruction .eret)) ∧
      (¬(rn = 0b1110#4 ∧ w.extractLsb' 0 8 = 0#8) → w &&& 0x00002F00#32 ≠ 0x00000F00#32 →
        decodeT32 w = .error .shouldBeBits) ∧
      (rn ≠ 0b1110#4 → w &&& 0x00002F00#32 = 0x00000F00#32 →
        decodeT32 w = .error (.unpredictable .t5RnNotLR)) ∧
      (rn = 0b1110#4 → w.extractLsb' 0 8 ≠ 0#8 → w &&& 0x00002F00#32 = 0x00000F00#32 →
        decodeT32 w = .ok (.subsPcLrT5 rn (w.extractLsb' 0 8)))) ∧
    (¬(w &&& 0xFBE08000#32 = 0xF1A00000#32) → ¬(w &&& 0xFBF08000#32 = 0xF2A00000#32) →
      ¬(w &&& 0xFFF0D000#32 = 0xF3D08000#32) → decodeT32 w = .error (.notThisInstruction .noMatch))

/-! ## Arithmetic -/

/-- R71: the result and the four flags of the subtraction in closed form, both forms of V, the corner cases the rule
lists, and its remark on the immediates of T1, T2, T4 and T5, all below 2^31. -/
def Obligations.SubtractionClosedForm : Prop :=
  (∀ x y : Word,
    let r := addWithCarry x (~~~y) true
    r.1.toNat = (x.toNat + 2 ^ 32 - y.toNat) % 2 ^ 32 ∧
    r.2.n = r.1.getLsbD 31 ∧
    (r.2.z = true ↔ r.1 = 0#32) ∧
    (r.2.z = true ↔ x = y) ∧
    (r.2.c = true ↔ y.toNat ≤ x.toNat) ∧
    (r.2.v = true ↔ x.toInt - y.toInt < -2 ^ 31 ∨ 2 ^ 31 - 1 < x.toInt - y.toInt) ∧
    (r.2.v = true ↔ x.getLsbD 31 ≠ y.getLsbD 31 ∧ r.1.getLsbD 31 ≠ x.getLsbD 31) ∧
    (y.toNat < 2 ^ 31 → r.2.v = true → x.getLsbD 31 = true ∧ r.1.getLsbD 31 = false)) ∧
  (∀ imm3 rn rd : BitVec 3, (immOf (.subT1 imm3 rn rd)).toNat < 2 ^ 31) ∧
  (∀ (rdn : BitVec 3) (imm8 : BitVec 8), (immOf (.subT2 rdn imm8)).toNat < 2 ^ 31) ∧
  (∀ (i : BitVec 1) (rn : RegNum) (imm3 : BitVec 3) (rd : RegNum) (imm8 : BitVec 8),
    (immOf (.subwT4 i rn imm3 rd imm8)).toNat < 2 ^ 31) ∧
  (∀ (rn : RegNum) (imm8 : BitVec 8), (immOf (.subsPcLrT5 rn imm8)).toNat < 2 ^ 31) ∧
  (∀ x : Word, (addWithCarry x (~~~0#32) true).1 = x ∧ (addWithCarry x (~~~0#32) true).2.c = true ∧
    (addWithCarry x (~~~0#32) true).2.v = false) ∧
  (∀ x : Word, addWithCarry x (~~~x) true = (0#32, ⟨false, true, true, false⟩)) ∧
  addWithCarry 0x80000000#32 (~~~1#32) true = (0x7FFFFFFF#32, ⟨false, false, true, true⟩) ∧
  addWithCarry 0#32 (~~~0x80000000#32) true = (0x80000000#32, ⟨true, false, false, true⟩)

/-- R9: bit `i` of `ROR(v, s)` is bit `(i + s mod 32) mod 32` of `v`, and `ROR(v, 0) = v`. -/
def Obligations.RorMovesBits : Prop :=
  ∀ (v : Word) (s : Nat),
    (∀ i, i < 32 → (ror v s).getLsbD i = v.getLsbD ((i + s % 32) % 32)) ∧ ror v 0 = v

/-- R11: bit `i` of `A32ExpandImm(imm12)` is bit `(i + 2 * UInt(imm12[11:8])) mod 32` of `imm12[7:0]` extended by
zeros; and the rule's examples, the four spellings of 1 among them. -/
def Obligations.A32ExpandImmBits : Prop :=
  (∀ (imm12 : BitVec 12) (i : Nat), i < 32 →
    (a32ExpandImm imm12).getLsbD i =
      (imm12.extractLsb' 0 8).getLsbD ((i + 2 * (imm12.extractLsb' 8 4).toNat) % 32)) ∧
  [0x001#12, 0x0FF#12, 0x102#12, 0x101#12, 0x4FF#12, 0x2FF#12, 0xF01#12, 0xFFF#12, 0x104#12, 0x210#12,
    0x340#12].map a32ExpandImm =
  [0x00000001#32, 0x000000FF#32, 0x80000000#32, 0x40000000#32, 0xFF000000#32, 0xF000000F#32, 0x00000004#32,
    0x000003FC#32, 0x00000001#32, 0x00000001#32, 0x00000001#32]

/-- R12: the four replicated forms of `T32ExpandImm(imm12)` byte by byte, and the rotated form bit by bit. -/
def Obligations.T32ExpandImmForms : Prop :=
  ∀ imm12 : BitVec 12,
    let b := imm12.extractLsb' 0 8
    let v := t32ExpandImm imm12
    (imm12.extractLsb' 8 4 = 0b0000#4 → v.toNat = b.toNat) ∧
    (imm12.extractLsb' 8 4 = 0b0001#4 → v.toNat = b.toNat * 0x00010001) ∧
    (imm12.extractLsb' 8 4 = 0b0010#4 → v.toNat = b.toNat * 0x01000100) ∧
    (imm12.extractLsb' 8 4 = 0b0011#4 → v.toNat = b.toNat * 0x01010101) ∧
    (imm12.extractLsb' 10 2 ≠ 0b00#2 → ∀ i, i < 32 →
      v.getLsbD i = (1#1 ++ imm12.extractLsb' 0 7).getLsbD ((i + (imm12.extractLsb' 7 5).toNat) % 32))

/-! ## Conditions and the IT state -/

/-- R27: what each of the sixteen condition codes tests. -/
def Obligations.ConditionCodes : Prop :=
  ∀ f : Nzcv,
    conditionHolds 0b0000#4 f = f.z ∧ conditionHolds 0b0001#4 f = !f.z ∧
    conditionHolds 0b0010#4 f = f.c ∧ conditionHolds 0b0011#4 f = !f.c ∧
    conditionHolds 0b0100#4 f = f.n ∧ conditionHolds 0b0101#4 f = !f.n ∧
    conditionHolds 0b0110#4 f = f.v ∧ conditionHolds 0b0111#4 f = !f.v ∧
    conditionHolds 0b1000#4 f = (f.c && !f.z) ∧ conditionHolds 0b1001#4 f = !(f.c && !f.z) ∧
    conditionHolds 0b1010#4 f = (f.n == f.v) ∧ conditionHolds 0b1011#4 f = !(f.n == f.v) ∧
    conditionHolds 0b1100#4 f = (f.n == f.v && !f.z) ∧ conditionHolds 0b1101#4 f = !(f.n == f.v && !f.z) ∧
    conditionHolds 0b1110#4 f = true ∧ conditionHolds 0b1111#4 f = true

/-- R28: ITAdvance shifts IT[4:0] left by one and keeps IT[7:5], or clears IT when IT[2:0] is 0; on the last
instruction of a block it clears IT, and after at most four advances nothing remains. -/
def Obligations.ItAdvanceShifts : Prop :=
  ∀ it : BitVec 8,
    (it &&& 0x07#8 = 0#8 → itAdvance it = 0#8) ∧
    (it &&& 0x07#8 ≠ 0#8 → itAdvance it = (it &&& 0xE0#8) ||| ((it <<< 1) &&& 0x1F#8)) ∧
    (lastInITBlock it = true → itAdvance it = 0#8) ∧
    itAdvance (itAdvance (itAdvance (itAdvance it))) = 0#8

/-- R27: a T32 instruction that meets a reserved IT state (IT[7:4] not 0, IT[3:0] 0) is refused, whatever else. -/
def Obligations.ReservedItStateRefused : Prop :=
  ∀ (i : Instr) (s : State), i.isA32 = false → s.pstate.it &&& 0xF0#8 ≠ 0#8 → s.pstate.it &&& 0x0F#8 = 0#8 →
    exec i s = .refused (.unpredictable .itReserved)

/-- R62: T5 inside an IT block and not last is refused, whether or not the condition holds. -/
def Obligations.SubsPcLrNotLastInItRefused : Prop :=
  ∀ (rn : RegNum) (imm8 : BitVec 8) (s : State), inITBlock s.pstate.it = true →
    lastInITBlock s.pstate.it = false → exec (.subsPcLrT5 rn imm8) s = .refused (.unpredictable .t5NotLastInIT)

/-! ## Registers and the SPSR layout -/

/-- R23: the register accessors. Numbers 0 to 14 read and write the copy the mode selects and no other; 15 reads the
instruction's address plus 8 (A32) or 4 (T32) modulo 2^32 and is written by no accessor. -/
def Obligations.RegisterAccessors : Prop :=
  ∀ (s : State) (n : RegNum) (v : Word) (isA32 : Bool),
    (n ≠ regPC → ∃ p, physReg s.pstate.m n = some p ∧ readReg isA32 n s = s.regs.get p ∧
      (writeReg n v s).regs.get p = v ∧
      (∀ q, q ≠ p → (writeReg n v s).regs.get q = s.regs.get q) ∧
      writeReg n v s = { s with regs := (writeReg n v s).regs }) ∧
    (readReg true regPC s).toNat = (s.pc.toNat + 8) % 2 ^ 32 ∧
    (readReg false regPC s).toNat = (s.pc.toNat + 4) % 2 ^ 32 ∧
    writeReg regPC v s = s

/-- R22: which physical register each number names in each mode, and which SPSR each mode has. -/
def Obligations.BankingTable : Prop :=
  (∀ (m : Mode) (n : Fin 8), physReg m (BitVec.ofNat 4 n) = some (.low n)) ∧
  (∀ (m : Mode) (n : Fin 5), physReg m (BitVec.ofNat 4 (n + 8)) = some (.mid (decide (m = .fiq)) n)) ∧
  (∀ m, (physReg m 13#4, physReg m 14#4, m.spsrBank) =
    match m with
    | .usr => (some (.sp .usr), some (.lr .usr), none)
    | .sys => (some (.sp .usr), some (.lr .usr), none)
    | .hyp => (some (.sp .hyp), some (.lr .usr), some .hyp)
    | .svc => (some (.sp .svc), some (.lr .svc), some .svc)
    | .abt => (some (.sp .abt), some (.lr .abt), some .abt)
    | .und => (some (.sp .und), some (.lr .und), some .und)
    | .mon => (some (.sp .mon), some (.lr .mon), some .mon)
    | .irq => (some (.sp .irq), some (.lr .irq), some .irq)
    | .fiq => (some (.sp .fiq), some (.lr .fiq), some .fiq)) ∧
  (∀ m, physReg m 15#4 = none)

/-- R32: the layout of a saved PSTATE, bit by bit; a field that is not implemented, and J, are 0. -/
def Obligations.SavedPstateLayout : Prop :=
  ∀ (par : Params) (p : Pstate),
    let w := psrOf par p
    w.getLsbD 31 = p.flags.n ∧ w.getLsbD 30 = p.flags.z ∧ w.getLsbD 29 = p.flags.c ∧ w.getLsbD 28 = p.flags.v ∧
    w.getLsbD 27 = p.q ∧ w.extractLsb' 25 2 = p.it.extractLsb' 0 2 ∧ w.getLsbD 24 = false ∧
    w.getLsbD 23 = (par.haveSSBS && p.ssbs) ∧ w.getLsbD 22 = (par.havePAN && p.pan) ∧
    w.getLsbD 21 = (par.haveDIT && p.dit) ∧ w.getLsbD 20 = p.il ∧ w.extractLsb' 16 4 = p.ge ∧
    w.extractLsb' 10 6 = p.it.extractLsb' 2 6 ∧ w.getLsbD 9 = p.e ∧ w.getLsbD 8 = p.a ∧ w.getLsbD 7 = p.i ∧
    w.getLsbD 6 = p.f ∧ w.getLsbD 5 = p.t ∧ w.getLsbD 4 = true ∧ Mode.ofBits (w.extractLsb' 0 5) = some p.m

/-! ## Results: the whole next state when the condition passed -/

/-- R72: SUB A1 with a destination other than the PC completes with `Rd = Rn - imm32`, the PC past it, and nothing
else changed, the flags included. -/
def Obligations.SubA1Result : Prop :=
  ∀ (cond : BitVec 4) (rn rd : RegNum) (imm12 : BitVec 12) (s : State), rd ≠ regPC →
    conditionHolds cond s.pstate.flags = true → s.pc.toNat + 4 < 2 ^ 32 →
    exec (.subA1 cond rn rd imm12) s =
      .next (resultState (.subA1 cond rn rd imm12) rd (readReg true rn s - a32ExpandImm imm12) none s)

/-- R73: SUBS A1 with a destination other than the PC completes with `Rd = Rn - imm32` (Rn = PC reads the address plus
8) and the flags of R71. -/
def Obligations.SubsA1Result : Prop :=
  ∀ (cond : BitVec 4) (rn rd : RegNum) (imm12 : BitVec 12) (s : State), rd ≠ regPC →
    conditionHolds cond s.pstate.flags = true → s.pc.toNat + 4 < 2 ^ 32 →
    exec (.subsA1 cond rn rd imm12) s =
      .next (resultState (.subsA1 cond rn rd imm12) rd (readReg true rn s - a32ExpandImm imm12)
        (some (subFlags (readReg true rn s) (a32ExpandImm imm12))) s)

/-- R74: T1 completes with `Rd = Rn - imm3`; the flags of R71 outside an IT block, no flags inside one, where the IT
state advances. -/
def Obligations.SubT1Result : Prop :=
  ∀ (imm3 rn rd : BitVec 3) (s : State), conditionPassed none s = true → s.pc.toNat + 2 < 2 ^ 32 →
    let a := readReg false (rn.setWidth 4) s
    exec (.subT1 imm3 rn rd) s =
      .next (resultState (.subT1 imm3 rn rd) (rd.setWidth 4) (a - imm3.setWidth 32)
        (if inITBlock s.pstate.it then none else some (subFlags a (imm3.setWidth 32))) s)

/-- R75: T2 completes with `Rdn = Rdn - imm8`, the old value read before the write (R81); the flags as T1. -/
def Obligations.SubT2Result : Prop :=
  ∀ (rdn : BitVec 3) (imm8 : BitVec 8) (s : State), conditionPassed none s = true → s.pc.toNat + 2 < 2 ^ 32 →
    let a := readReg false (rdn.setWidth 4) s
    exec (.subT2 rdn imm8) s =
      .next (resultState (.subT2 rdn imm8) (rdn.setWidth 4) (a - imm8.setWidth 32)
        (if inITBlock s.pstate.it then none else some (subFlags a (imm8.setWidth 32))) s)

/-- R76: SUB T3 completes with `Rd = Rn - T32ExpandImm(i:imm3:imm8)` and no flags. -/
def Obligations.SubT3Result : Prop :=
  ∀ (i : BitVec 1) (rn : RegNum) (imm3 : BitVec 3) (rd : RegNum) (imm8 : BitVec 8) (s : State), rd ≠ regPC →
    conditionPassed none s = true → s.pc.toNat + 4 < 2 ^ 32 →
    exec (.subT3 i rn imm3 rd imm8) s =
      .next (resultState (.subT3 i rn imm3 rd imm8) rd
        (readReg false rn s - t32ExpandImm (i ++ imm3 ++ imm8)) none s)

/-- R77: SUBS T3 completes with `Rd = Rn - T32ExpandImm(i:imm3:imm8)` and the flags of R71, inside an IT block too. -/
def Obligations.SubsT3Result : Prop :=
  ∀ (i : BitVec 1) (rn : RegNum) (imm3 : BitVec 3) (rd : RegNum) (imm8 : BitVec 8) (s : State), rd ≠ regPC →
    conditionPassed none s = true → s.pc.toNat + 4 < 2 ^ 32 →
    exec (.subsT3 i rn imm3 rd imm8) s =
      .next (resultState (.subsT3 i rn imm3 rd imm8) rd (readReg false rn s - t32ExpandImm (i ++ imm3 ++ imm8))
        (some (subFlags (readReg false rn s) (t32ExpandImm (i ++ imm3 ++ imm8)))) s)

/-- R78: T4 completes with `Rd = Rn - ZeroExtend(i:imm3:imm8)` and no flags, inside or outside an IT block. -/
def Obligations.SubwT4Result : Prop :=
  ∀ (i : BitVec 1) (rn : RegNum) (imm3 : BitVec 3) (rd : RegNum) (imm8 : BitVec 8) (s : State), rd ≠ regPC →
    conditionPassed none s = true → s.pc.toNat + 4 < 2 ^ 32 →
    exec (.subwT4 i rn imm3 rd imm8) s =
      .next (resultState (.subwT4 i rn imm3 rd imm8) rd
        (readReg false rn s - (i ++ imm3 ++ imm8).setWidth 32) none s)

/-! ## Not executed, wrapped, branched -/

/-- R80: an instruction whose condition failed only completes, whatever its destination and the mode; the decode-time
refusals come before the condition, that of R62 on the IT state and those of the decoder; and a T32 instruction outside
an IT block always passes. -/
def Obligations.ConditionFailedOnlyCompletes : Prop :=
  (∀ (i : Instr) (s : State) (c : BitVec 4), itPlaceOk s.pstate.it i = true →
    currentCond (condField i) s.pstate.it = some c → conditionHolds c s.pstate.flags = false →
    s.pc.toNat + i.length < 2 ^ 32 → exec i s = .next (passedOver i s)) ∧
  (∀ (i : Instr) (s : State), itPlaceOk s.pstate.it i = false →
    exec i s = .refused (.unpredictable .t5NotLastInIT)) ∧
  (∀ (s : State) (bytes : List Byte) (e : Reject), fetch s = .next bytes → s.pstate.il = false →
    decode s.pstate.t bytes = .error e → step s = rejected s.pc e) ∧
  (∀ s : State, s.pstate.it = 0#8 → conditionPassed none s = true)

/-- R95: an instruction that would advance sequentially past `0xFFFFFFFF`, its condition failed or its destination no
PC, is refused; a branch target is the difference modulo 2^32, as of `SUB PC, Rn, #4` with Rn = 0; and the PC read as an
operand wraps. -/
def Obligations.SequentialWrapRefused : Prop :=
  (∀ (i : Instr) (s : State) (c : BitVec 4), itPlaceOk s.pstate.it i = true →
    currentCond (condField i) s.pstate.it = some c →
    (conditionHolds c s.pstate.flags = false ∨ destOf i ≠ regPC) →
    2 ^ 32 ≤ s.pc.toNat + i.length → exec i s = .refused .pcWrap) ∧
  (∀ (rn : RegNum) (s : State), readReg true rn s = 0#32 →
    exec (.subA1 14#4 rn regPC 4#12) s =
      .next { s with pc := 0xFFFFFFFC#32, pstate := { s.pstate with t := false } }) ∧
  (∀ s : State, (readReg true regPC s).toNat = (s.pc.toNat + 8) % 2 ^ 32 ∧
    (readReg false regPC s).toNat = (s.pc.toNat + 4) % 2 ^ 32)

/-- R91: SUB A1 with Rd = PC is an interworking branch: bit 0 of the target selects T32; bits [1:0] = 00 stay in A32;
10 is refused where the implementation's choice is not given, and follows `A32ForceAlignPC` where it is: bit 1 is
cleared, or left set and the next step takes a PC alignment fault. Nothing but the PC and PSTATE.T changes; where the
condition failed there is no branch. MODEL'S CHOICE (log 8): the two clauses in which `A32ForceAlignPC` is given, where
R91 names the two behaviours and refuses the case (decision D11). -/
def Obligations.SubA1PcInterworks : Prop :=
  ∀ (cond : BitVec 4) (rn : RegNum) (imm12 : BitVec 12) (s : State),
    let a := readReg true rn s - a32ExpandImm imm12
    let out := exec (.subA1 cond rn regPC imm12) s
    (conditionHolds cond s.pstate.flags = false → s.pc.toNat + 4 < 2 ^ 32 →
      out = .next { s with pc := s.pc + 4#32 }) ∧
    (conditionHolds cond s.pstate.flags = true →
    (a.getLsbD 0 = true →
      out = .next { s with pc := a &&& 0xFFFFFFFE#32, pstate := { s.pstate with t := true } }) ∧
    (a &&& 3#32 = 0#32 → out = .next { s with pc := a, pstate := { s.pstate with t := false } }) ∧
    (a &&& 3#32 = 2#32 → s.par.a32ForceAlignPC = .unresolved → out = .refused (.unpredictable .bxA32Unaligned)) ∧
    (a &&& 3#32 = 2#32 → s.par.a32ForceAlignPC = .clears →
      out = .next { s with pc := a &&& 0xFFFFFFFC#32, pstate := { s.pstate with t := false } }) ∧
    (a &&& 3#32 = 2#32 → s.par.a32ForceAlignPC = .leaves →
      let t := { s with pc := a, pstate := { s.pstate with t := false } }
      out = .next t ∧ step t = .fault (.pcAlignment a)))

/-! ## SUBS with destination PC -/

/-- R100: in Hyp mode a SUBS with destination PC whose condition passed is UNDEFINED: the fault names the instruction's
address and bits (R106). -/
def Obligations.SubsPcInHypUndefined : Prop :=
  ∀ (i : Instr) (s : State), isSubsPc i = true → itPlaceOk s.pstate.it i = true →
    conditionPassed (condField i) s = true → s.pstate.m = .hyp →
    exec i s = .fault (.undefinedInstruction s.pc (encodeBits i))

/-- R101: in User and System mode a SUBS with destination PC whose condition passed is refused where the
implementation's choice is not given. MODEL'S CHOICE (log 8): where `ALUExcReturnUserSys` is given, it runs as a NOP or
is UNDEFINED, the two behaviours R101 names and never picks (decision D8). MODEL'S CHOICE (log 10): the entry of the last
clause. -/
def Obligations.SubsPcInUserSystem : Prop :=
  ∀ (i : Instr) (s : State), isSubsPc i = true → itPlaceOk s.pstate.it i = true →
    conditionPassed (condField i) s = true → (s.pstate.m = .usr ∨ s.pstate.m = .sys) →
    (s.par.aluExcReturnUserSys = .unresolved → exec i s = .refused (.unpredictable .excReturnUserSys)) ∧
    (s.par.aluExcReturnUserSys = .nop → s.pc.toNat + i.length < 2 ^ 32 → exec i s = .next (passedOver i s)) ∧
    (s.par.aluExcReturnUserSys = .undefined → s.par.exceptions = .terminal →
      exec i s = .fault (.undefinedInstruction s.pc (encodeBits i))) ∧
    (s.par.aluExcReturnUserSys = .undefined → s.par.exceptions = .entered → takenToUndefinedMode s = true →
      exec i s = .next (enterUndefinedMode i.isA32 s))

/-- R102, R103: SUBS A1 with Rd = PC in a mode with an SPSR (not Hyp), the return legal, completes: it branches to
`Rn - imm32` and restores PSTATE from the mode's SPSR, to the mode and IL the SPSR names; no register is written. -/
def Obligations.SubsA1PcReturns : Prop :=
  ∀ (cond : BitVec 4) (rn : RegNum) (imm12 : BitVec 12) (s : State) (b : SpsrBank),
    conditionHolds cond s.pstate.flags = true → s.pstate.m ≠ .hyp → s.pstate.m.spsrBank = some b →
    legalReturn s (s.spsr.get b) = true →
    ∃ t, exec (.subsA1 cond rn regPC imm12) s = .next t ∧
      ReturnLeaves s t (readReg true rn s - a32ExpandImm imm12) (s.spsr.get b) ∧
      Mode.ofBits ((s.spsr.get b).extractLsb' 0 5) = some t.pstate.m ∧
      t.pstate.il = (s.spsr.get b).getLsbD 20 ∧
      t.pstate.ssbs = if s.par.haveSSBS then (s.spsr.get b).getLsbD 23 else s.pstate.ssbs

/-- R79, R102, R103: SUBS PC, LR (T5) outside an IT block or last in one, in a mode with an SPSR (not Hyp), the return
legal, completes: it branches to `LR - imm8` and restores PSTATE from the mode's SPSR; no IT advance follows. -/
def Obligations.SubsPcLrReturns : Prop :=
  ∀ (rn : RegNum) (imm8 : BitVec 8) (s : State) (b : SpsrBank),
    itPlaceOk s.pstate.it (.subsPcLrT5 rn imm8) = true → conditionPassed none s = true →
    s.pstate.m ≠ .hyp → s.pstate.m.spsrBank = some b → legalReturn s (s.spsr.get b) = true →
    ∃ t, exec (.subsPcLrT5 rn imm8) s = .next t ∧
      ReturnLeaves s t (readReg false rn s - imm8.setWidth 32) (s.spsr.get b) ∧
      Mode.ofBits ((s.spsr.get b).extractLsb' 0 5) = some t.pstate.m ∧
      t.pstate.il = (s.spsr.get b).getLsbD 20 ∧
      t.pstate.ssbs = if s.par.haveSSBS then (s.spsr.get b).getLsbD 23 else s.pstate.ssbs

/-- R104: the returns LegalReturn must reject, and those it accepts: every return to an implemented mode at the same or a
lower level, User included, that neither the list of R104 nor the parameter rejects. MODEL'S CHOICE (log 12): the
parameter is R104's list with the pairs of `illegalReturns`, Secure state is read from SCR.NS, and HCR.TGE counts on a PE
with EL2 only. -/
def Obligations.IllegalReturnEvents : Prop :=
  ∀ (s : State) (spsr : Word) (m : Mode),
    (spsr.getLsbD 4 = false → legalReturn s spsr = false) ∧
    (Mode.ofBits (spsr.extractLsb' 0 5) = none → legalReturn s spsr = false) ∧
    (Mode.ofBits (spsr.extractLsb' 0 5) = some m →
      (m = .hyp → s.par.haveEL2 = false → legalReturn s spsr = false) ∧
      (m = .mon → s.par.haveEL3 = false → legalReturn s spsr = false) ∧
      (s.pstate.m.level s.par s.sys < m.level s.par s.sys → legalReturn s spsr = false) ∧
      (m = .hyp → secureState s.par s.sys = true → legalReturn s spsr = false) ∧
      (m.level s.par s.sys = 1 → s.par.haveEL2 = true → s.sys.hcrTGE = true → legalReturn s spsr = false) ∧
      ((s.pstate.m, spsr) ∈ s.par.illegalReturns → legalReturn s spsr = false) ∧
      (m.implemented s.par = true → m.level s.par s.sys ≤ s.pstate.m.level s.par s.sys →
        (m = .hyp → secureState s.par s.sys = false) →
        (m.level s.par s.sys = 1 → s.par.haveEL2 = true → s.sys.hcrTGE = false) →
        (s.pstate.m, spsr) ∉ s.par.illegalReturns → legalReturn s spsr = true))

/-- R104: where exceptions are terminal faults (decision D7), a SUBS with destination PC whose SPSR describes an
illegal return faults. -/
def Obligations.IllegalReturnFaults : Prop :=
  ∀ (i : Instr) (s : State) (b : SpsrBank), isSubsPc i = true → itPlaceOk s.pstate.it i = true →
    conditionPassed (condField i) s = true → s.pstate.m ≠ .hyp → s.pstate.m.spsrBank = some b →
    legalReturn s (s.spsr.get b) = false → s.par.exceptions = .terminal →
    exec i s = .fault (.illegalReturn s.pc)

/-- R103, R104: where exceptions are entered, an illegal return sets PSTATE.IL, keeps the mode, and restores the other
fields; T, IT and PC[1:0] are what R103 permits and no more is said of them. MODEL'S CHOICE (log 10): to follow an
illegal return at all. -/
def Obligations.IllegalReturnSetsIl : Prop :=
  ∀ (i : Instr) (s : State) (b : SpsrBank), isSubsPc i = true → itPlaceOk s.pstate.it i = true →
    conditionPassed (condField i) s = true → s.pstate.m ≠ .hyp → s.pstate.m.spsrBank = some b →
    legalReturn s (s.spsr.get b) = false → s.par.exceptions = .entered →
    ∃ t, exec i s = .next t ∧ ReturnLeaves s t (operandOf s i - immOf i) (s.spsr.get b) ∧
      t.pstate.il = true ∧ t.pstate.m = s.pstate.m

/-! ## Exception entry -/

/-- R104, R107: in the Illegal Execution state, where exceptions are entered and the exception is taken to Undefined
mode, a step enters it: SPSR_und holds the saved PSTATE, LR_und the instruction's address plus 4 (A32) or 2 (T32), the
mode is Undefined with I = 1, IT = 0, IL = 0, T = SCTLR.TE, E = SCTLR.EE, the PC is the vector base plus 4, and nothing
else changed. MODEL'S CHOICE (log 10): R107 says of its sequence that it is no rule of the spec. -/
def Obligations.IllegalStateEntersUndefined : Prop :=
  ∀ (s : State) (bytes : List Byte), fetch s = .next bytes → s.pstate.il = true → s.par.exceptions = .entered →
    takenToUndefinedMode s = true →
    ∃ t, step s = .next t ∧ t.spsr = { s.spsr with und := psrOf s.par s.pstate } ∧
      t.regs.get (.lr .und) = s.pc + (if s.pstate.t then 2#32 else 4#32) ∧
      (∀ p, p ≠ .lr .und → t.regs.get p = s.regs.get p) ∧
      t.pstate = { s.pstate with
        m := .und, i := true, it := 0#8, il := false, t := s.sys.sctlrTE, e := s.sys.sctlrEE } ∧
      t.pc = (if s.sys.highVectors then 0xFFFF0000#32 else s.sys.vbar) + 4#32 ∧
      t.elrHyp = s.elrHyp ∧ t.mem = s.mem ∧ t.sys = s.sys ∧ t.par = s.par ∧
      t.exclusive = s.exclusive ∧ t.event = s.event ∧ t.draws = s.draws

/-- R102, R103, R107, R108: `SUBS PC, LR, #4` (an A32 instruction) or `#2` (a T32 one) as the first instruction of an
A32 Undefined handler undoes the entry: PSTATE and the PC are those of the instruction that was UNDEFINED. MODEL'S
CHOICE (log 10): the entry sequence. -/
def Obligations.ReturnUndoesUndefinedEntry : Prop :=
  ∀ (s : State) (isA32 : Bool), s.pstate.t = !isA32 → s.pstate.il = false → s.pstate.ss = false →
    s.par.softwareStep = false → itReserved s.pstate.it = false →
    (isA32 = true → s.pstate.it = 0#8 ∧ s.pc &&& 3#32 = 0#32) → (isA32 = false → s.pc.getLsbD 0 = false) →
    (itdOf s.sys s.pstate.m = false ∨ s.pstate.it &&& 7#8 = 0#8) →
    legalReturn (enterUndefinedMode isA32 s) (psrOf s.par s.pstate) = true →
    ∃ t, exec (.subsA1 14#4 14#4 15#4 (if isA32 then 4#12 else 2#12)) (enterUndefinedMode isA32 s) = .next t ∧
      t.pstate = s.pstate ∧ t.pc = s.pc ∧
      (∀ p, p ≠ .lr .und → t.regs.get p = s.regs.get p)

/-! ## Steps -/

/-- A step runs the instruction its decoder reads from the bytes fetched, and adds nothing (R16, R111). -/
def Obligations.StepRunsDecodedInstruction : Prop :=
  ∀ (s : State) (bytes rest : List Byte) (i : Instr), fetch s = .next bytes → s.pstate.il = false →
    decode s.pstate.t bytes = .ok (i, rest) → step s = exec i s

/-- R42, R44: where the bytes of a well-formed instruction stand at an aligned PC, little-endian, first halfword first,
and PSTATE.T names its instruction set, a step is exec of that instruction. -/
def Obligations.StepRunsInstructionAtPc : Prop :=
  ∀ (s : State) (i : Instr), i.wf = true → s.pstate.il = false → s.pstate.t = !i.isA32 →
    (if i.isA32 then s.pc &&& 3#32 = 0#32 else s.pc &&& 1#32 = 0#32) →
    (∀ k, k < i.length → s.mem.read (s.pc.toNat + k) = (encode i)[k]?) →
    step s = exec i s

/-- R16, R43, R44, R65, R104, R106: where a step stops before any instruction executes: a misaligned A32 PC faults, an
odd T32 PC is refused, a missing byte of the unit fetched faults, the Illegal Execution state faults with the
instruction's address and bits where its exception is not entered, and what the decoder rejects is refused under its
name. MODEL'S CHOICE: the name illFormedLaunch (log 7); the fetch's stops before the Illegal Execution state exception
(log 15); the address a FetchAbort names, and no halfword past 0xFFFFFFFF (log 16); which exceptions are entered (logs 10
and 11). -/
def Obligations.StepStopsByName : Prop :=
  ∀ s : State,
    (s.pstate.t = false → s.pc &&& 3#32 ≠ 0#32 → step s = .fault (.pcAlignment s.pc)) ∧
    (s.pstate.t = true → s.pc &&& 1#32 ≠ 0#32 → step s = .refused .illFormedLaunch) ∧
    (s.pstate.t = false → s.pc &&& 3#32 = 0#32 → (∃ k, k < 4 ∧ s.mem.read (s.pc.toNat + k) = none) →
      step s = .fault (.fetchAbort s.pc)) ∧
    (s.pstate.t = true → s.pc &&& 1#32 = 0#32 → (∃ k, k < 2 ∧ s.mem.read (s.pc.toNat + k) = none) →
      step s = .fault (.fetchAbort s.pc)) ∧
    (∀ b0 b1, s.pstate.t = true → s.pc &&& 1#32 = 0#32 → s.mem.read s.pc.toNat = some b0 →
      s.mem.read (s.pc.toNat + 1) = some b1 → isT32Long (halfOf b0 b1) = true →
      (∃ k, (k = 2 ∨ k = 3) ∧ s.mem.read (s.pc.toNat + k) = none) → step s = .fault (.fetchAbort (s.pc + 2#32))) ∧
    (∀ bytes, fetch s = .next bytes → s.pstate.il = true →
      (s.par.exceptions = .terminal ∨ takenToUndefinedMode s = false) →
      step s = .fault (.undefinedInstruction s.pc (fetchedBits s.pstate.t bytes))) ∧
    (∀ bytes e, fetch s = .next bytes → s.pstate.il = false → decode s.pstate.t bytes = .error e →
      (∀ t, e = .notThisInstruction t → step s = .refused (.notThisInstruction t)) ∧
      (e = .unpredictable .t3Rd15Sub → step s = .refused (.unpredictable .t3Rd15Sub)) ∧
      (e = .unpredictable .t3Rn15 → step s = .refused (.unpredictable .t3Rn15)) ∧
      (e = .unpredictable .t4Rd15 → step s = .refused (.unpredictable .t4Rd15)) ∧
      (e = .unpredictable .t5RnNotLR → step s = .refused (.unpredictable .t5RnNotLR)) ∧
      (e = .shouldBeBits → step s = .refused .shouldBeBits) ∧
      (e = .t32ExpandImmZeroByte → step s = .refused .t32ExpandImmZeroByte))

/-! ## Invariants -/

/-- Every step keeps the invariant: canonical program text, an implemented mode, a word-aligned VBAR, and, where IL = 0,
IT = 0 in A32, an even T32 PC and no reserved IT state. -/
def Obligations.StepKeepsInvariant : Prop :=
  ∀ s t : State, Inv s → step s = .next t → Inv t

/-- The state after reset meets the invariant and is a well-formed launch state (R120). MODEL'S CHOICE: that VBAR is
word-aligned is a premise of the invariant (log 24), which reset meets by VBAR's zero (log 4), and the even PC is the
reset vector's (log 5). -/
def Obligations.ResetMeetsInvariant : Prop :=
  Inv State.reset ∧ launchOk State.reset = true

/-- From a state that meets the invariant and whose A32 PC is a multiple of 4, in a machine whose A32 branches leave no
bit 1 set, a step keeps the A32 PC a multiple of 4 (R24, R43). -/
def Obligations.StepKeepsPcAligned : Prop :=
  ∀ s t : State, Inv s → PcAligned s → s.par.a32ForceAlignPC ≠ .leaves → step s = .next t → PcAligned t

/-- R48: the program text never changes, and neither do the parameters, the system-register state and ELR_hyp. -/
def Obligations.StepKeepsProgramText : Prop :=
  ∀ s t : State, step s = .next t →
    (∀ a, t.mem.read a = s.mem.read a) ∧ t.mem = s.mem ∧ t.par = s.par ∧ t.sys = s.sys ∧ t.elrHyp = s.elrHyp

/-! ## Frames -/

/-- R36: an instruction that takes no exception leaves every physical register but the one its destination number names
(none for the PC), every SPSR and every byte of the program text as they were. -/
def Obligations.RegisterFrame : Prop :=
  ∀ (i : Instr) (s t : State), exec i s = .next t → s.par.exceptions = .terminal →
    (∀ p, physReg s.pstate.m (destOf i) ≠ some p → t.regs.get p = s.regs.get p) ∧
    t.spsr = s.spsr ∧ t.elrHyp = s.elrHyp ∧ (∀ a, t.mem.read a = s.mem.read a)

/-- R36, R26: an instruction other than SUBS PC leaves PSTATE as it was but for the flags where `setflags` is true, the
IT state, which advances after a T32 instruction, and T, which only a branch changes; the monitor, the event register
and the free-value counter stay. -/
def Obligations.PstateFrame : Prop :=
  ∀ (i : Instr) (s t : State), i.wf = true → isSubsPc i = false → exec i s = .next t →
    t.pstate = { s.pstate with
      flags := t.pstate.flags
      it := if !i.isA32 && s.pstate.it != 0#8 then itAdvance s.pstate.it else s.pstate.it
      t := t.pstate.t } ∧
    (setsFlags s.pstate.it i = false → t.pstate.flags = s.pstate.flags) ∧
    (destOf i ≠ regPC → t.pstate.t = s.pstate.t) ∧
    t.exclusive = s.exclusive ∧ t.event = s.event ∧ t.draws = s.draws

/-- R24: "The only writers of the PC": any well-formed instruction whose destination is not the PC leaves the PC at its
own address plus its length, without a wrap. -/
def Obligations.OtherFormsAdvancePc : Prop :=
  ∀ (i : Instr) (s t : State), destOf i ≠ regPC → exec i s = .next t →
    s.pc.toNat + i.length < 2 ^ 32 ∧ t.pc.toNat = s.pc.toNat + i.length

/-! ## Modes -/

/-- R112: a step changes the mode only by an exception return or by an exception entry. Either the word fetched is a
SUBS with destination PC whose condition passed, in a mode other than Hyp whose SPSR describes a legal return, and the
new mode is the one that SPSR names; or, MODEL'S CHOICE (log 10), exceptions are entered and the step is the entry to
Undefined mode, from the Illegal Execution state or by such a SUBS in User or System mode where it is UNDEFINED
(log 8). -/
def Obligations.ModeChangesOnlyByReturnOrEntry : Prop :=
  ∀ s t : State, step s = .next t → t.pstate.m ≠ s.pstate.m →
    (s.pstate.il = false ∧ ∃ (bytes rest : List Byte) (i : Instr) (b : SpsrBank),
      fetch s = .next bytes ∧ decode s.pstate.t bytes = .ok (i, rest) ∧ isSubsPc i = true ∧
      conditionPassed (condField i) s = true ∧ s.pstate.m ≠ .hyp ∧ s.pstate.m.spsrBank = some b ∧
      legalReturn s (s.spsr.get b) = true ∧
      Mode.ofBits ((s.spsr.get b).extractLsb' 0 5) = some t.pstate.m) ∨
    (s.par.exceptions = .entered ∧ takenToUndefinedMode s = true ∧ t = enterUndefinedMode (!s.pstate.t) s ∧
      (s.pstate.il = true ∨ ∃ (bytes rest : List Byte) (i : Instr),
        fetch s = .next bytes ∧ decode s.pstate.t bytes = .ok (i, rest) ∧ isSubsPc i = true ∧
        conditionPassed (condField i) s = true ∧ (s.pstate.m = .usr ∨ s.pstate.m = .sys) ∧
        s.par.aluExcReturnUserSys = .undefined))

/-- R22, R112: where exceptions are not entered, a step from User mode stays in User mode, keeps the interrupt masks,
IL, the SPSRs, ELR_hyp, and every register User mode does not see. -/
def Obligations.UserModeIsConfined : Prop :=
  ∀ s t : State, step s = .next t → s.pstate.m = .usr → s.par.exceptions = .terminal →
    t.pstate.m = .usr ∧ t.pstate.a = s.pstate.a ∧ t.pstate.i = s.pstate.i ∧ t.pstate.f = s.pstate.f ∧
    t.pstate.il = s.pstate.il ∧ t.spsr = s.spsr ∧ t.elrHyp = s.elrHyp ∧
    ∀ p, ¬ seenIn .usr p → t.regs.get p = s.regs.get p

/-- R22: "every register access goes to the current mode's copy": where exceptions are terminal, what stands in a
register the current mode does not see influences nothing that an instruction does, and it stays there. -/
def Obligations.OtherBanksAreNotRead : Prop :=
  ∀ (i : Instr) (s : State) (q : PhysReg) (v : Word), ¬ seenIn s.pstate.m q → s.par.exceptions = .terminal →
    exec i { s with regs := s.regs.set q v } = mapNext (fun t => { t with regs := t.regs.set q v }) (exec i s)

/-- R33: "No value computed by any rule of this spec depends on it": a well-formed instruction that is no SUBS PC gives the same
outcome whatever PSTATE.DIT holds, and leaves DIT as it was. -/
def Obligations.DitIsNotRead : Prop :=
  ∀ (i : Instr) (s : State) (b : Bool), i.wf = true → isSubsPc i = false →
    exec i { s with pstate := { s.pstate with dit := b } } =
      mapNext (fun t => { t with pstate := { t.pstate with dit := b } }) (exec i s)

/-! ## Reset and the end of a run -/

/-- R35: what reset leaves where the rule gives a value: IT 0, A, I, F masked, Supervisor mode in Secure state, IL, SS
and DIT 0. MODEL'S CHOICE (log 2): no program text. -/
def Obligations.ResetValues : Prop :=
  State.reset.pstate.it = 0#8 ∧ State.reset.pstate.a = true ∧ State.reset.pstate.i = true ∧
  State.reset.pstate.f = true ∧ State.reset.pstate.m = .svc ∧ State.reset.pstate.il = false ∧
  State.reset.pstate.ss = false ∧ State.reset.pstate.dit = false ∧
  secureState State.reset.par State.reset.sys = State.reset.par.haveEL3 ∧ ∀ a, State.reset.mem.read a = none

/-- R122: a run that ends safely ends with the PC at `Exit`; more fuel changes no outcome; and at `Exit` it ends at
once, whatever stands there. -/
def Obligations.RunEndsAtExit : Prop :=
  (∀ (exit : Word) (k : Nat) (s t : State), runTo exit k s = some (.next t) → t.pc = exit) ∧
  (∀ (exit : Word) (k j : Nat) (s : State) (o : Host.Outcome State Fault Refusal),
    runTo exit k s = some o → runTo exit (k + j) s = some o) ∧
  (∀ (k : Nat) (s : State), runTo s.pc k s = some (.next s))
end

