-- ==== Sys2Proof/Laws/Encoding.lean ====
section
/-! SUPPORT. The small laws of the encodings (R42, R50 to R56): bytes and words, the fields of each encoder, a word put
together again from its fields, and each mask and match of the opcode table as the fields it fixes. -/

namespace Sys2Proof

/-! ## Bytes and words (R42) -/

theorem wordOf_extract (w : Word) :
    wordOf (w.extractLsb' 0 8) (w.extractLsb' 8 8) (w.extractLsb' 16 8) (w.extractLsb' 24 8) = w := by
  simp only [wordOf]
  rw [BitVec.extractLsb'_append_extractLsb'_eq_extractLsb' (by rfl),
    BitVec.extractLsb'_append_extractLsb'_eq_extractLsb' (by rfl),
    BitVec.extractLsb'_append_extractLsb'_eq_extractLsb' (by rfl)]
  simp

theorem halfOf_extract (h : Half) : halfOf (h.extractLsb' 0 8) (h.extractLsb' 8 8) = h := by
  simp only [halfOf]
  rw [BitVec.extractLsb'_append_extractLsb'_eq_extractLsb' (by rfl)]
  simp

/-- A field of a field is a field. -/
theorem extract_extract {n : Nat} (w : BitVec n) (lo len lo' len' : Nat) (h : lo' + len' ≤ len) :
    (w.extractLsb' lo len).extractLsb' lo' len' = w.extractLsb' (lo + lo') len' := by
  apply BitVec.eq_of_getLsbD_eq
  intro k hk
  simp only [BitVec.getLsbD_extractLsb', hk, show lo' + k < len by omega, Nat.add_assoc]
  simp

/-- A pair of halfwords put together from its two halves. -/
theorem pair_extract (w : Word) : w.extractLsb' 16 16 ++ w.extractLsb' 0 16 = w := by
  rw [BitVec.extractLsb'_append_extractLsb'_eq_extractLsb' (by rfl)]
  simp

@[simp] theorem extract_pair_high (a b : Half) : (a ++ b).extractLsb' 16 16 = a :=
  BitVec.extractLsb'_append_eq_left

@[simp] theorem extract_pair_low (a b : Half) : (a ++ b).extractLsb' 0 16 = b :=
  BitVec.extractLsb'_append_eq_right

theorem halfBytes_halfOf (b0 b1 : Byte) : halfBytes (halfOf b0 b1) = [b0, b1] := by
  simp only [halfBytes, halfOf, List.cons.injEq, and_true]
  exact ⟨BitVec.extractLsb'_append_eq_right, BitVec.extractLsb'_append_eq_left⟩

theorem wordBytes_wordOf (b0 b1 b2 b3 : Byte) : wordBytes (wordOf b0 b1 b2 b3) = [b0, b1, b2, b3] := by
  simp only [wordBytes, wordOf, List.cons.injEq, and_true]
  refine ⟨BitVec.extractLsb'_append_eq_right, ?_, ?_, ?_⟩
  · rw [BitVec.extractLsb'_append_eq_of_le (by decide)]
    exact BitVec.extractLsb'_append_eq_right
  · repeat rw [BitVec.extractLsb'_append_eq_of_le (by decide)]
    exact BitVec.extractLsb'_append_eq_right
  · repeat rw [BitVec.extractLsb'_append_eq_of_le (by decide)]
    simp

theorem pairBytes_halves (b0 b1 b2 b3 : Byte) :
    pairBytes (halfOf b0 b1 ++ halfOf b2 b3) = [b0, b1, b2, b3] := by
  simp [pairBytes, halfBytes_halfOf]

/-! ## A1: the fields of the encoder, and a word from its fields -/

@[simp] theorem encA1_cond (s : BitVec 1) (cond : BitVec 4) (rn rd : RegNum) (imm12 : BitVec 12) :
    (encA1 s cond rn rd imm12).extractLsb' 28 4 = cond := by
  unfold encA1
  repeat rw [BitVec.extractLsb'_append_eq_of_le (by decide)]
  simp

@[simp] theorem encA1_op (s : BitVec 1) (cond : BitVec 4) (rn rd : RegNum) (imm12 : BitVec 12) :
    (encA1 s cond rn rd imm12).extractLsb' 21 7 = 0b0010010#7 := by
  unfold encA1
  repeat rw [BitVec.extractLsb'_append_eq_of_le (by decide)]
  exact BitVec.extractLsb'_append_eq_right

@[simp] theorem encA1_s (s : BitVec 1) (cond : BitVec 4) (rn rd : RegNum) (imm12 : BitVec 12) :
    (encA1 s cond rn rd imm12).extractLsb' 20 1 = s := by
  unfold encA1
  repeat rw [BitVec.extractLsb'_append_eq_of_le (by decide)]
  exact BitVec.extractLsb'_append_eq_right

@[simp] theorem encA1_rn (s : BitVec 1) (cond : BitVec 4) (rn rd : RegNum) (imm12 : BitVec 12) :
    (encA1 s cond rn rd imm12).extractLsb' 16 4 = rn := by
  unfold encA1
  repeat rw [BitVec.extractLsb'_append_eq_of_le (by decide)]
  exact BitVec.extractLsb'_append_eq_right

@[simp] theorem encA1_rd (s : BitVec 1) (cond : BitVec 4) (rn rd : RegNum) (imm12 : BitVec 12) :
    (encA1 s cond rn rd imm12).extractLsb' 12 4 = rd := by
  unfold encA1
  repeat rw [BitVec.extractLsb'_append_eq_of_le (by decide)]
  exact BitVec.extractLsb'_append_eq_right

@[simp] theorem encA1_imm12 (s : BitVec 1) (cond : BitVec 4) (rn rd : RegNum) (imm12 : BitVec 12) :
    (encA1 s cond rn rd imm12).extractLsb' 0 12 = imm12 := by
  unfold encA1
  exact BitVec.extractLsb'_append_eq_right

theorem encA1_of_fields (w : Word) (hop : w.extractLsb' 21 7 = 0b0010010#7) :
    encA1 (w.extractLsb' 20 1) (w.extractLsb' 28 4) (w.extractLsb' 16 4) (w.extractLsb' 12 4) (w.extractLsb' 0 12) = w := by
  rw [encA1, ← hop]
  rw [BitVec.extractLsb'_append_extractLsb'_eq_extractLsb' (by rfl),
    BitVec.extractLsb'_append_extractLsb'_eq_extractLsb' (by rfl),
    BitVec.extractLsb'_append_extractLsb'_eq_extractLsb' (by rfl),
    BitVec.extractLsb'_append_extractLsb'_eq_extractLsb' (by rfl),
    BitVec.extractLsb'_append_extractLsb'_eq_extractLsb' (by rfl)]
  simp

/-! ## T1: the fields of the encoder, and a word from its fields -/

@[simp] theorem encT1_op (imm3 rn rd : BitVec 3) :
    (encT1 imm3 rn rd).extractLsb' 9 7 = 0b0001111#7 := by
  unfold encT1
  repeat rw [BitVec.extractLsb'_append_eq_of_le (by decide)]
  simp

@[simp] theorem encT1_imm3 (imm3 rn rd : BitVec 3) :
    (encT1 imm3 rn rd).extractLsb' 6 3 = imm3 := by
  unfold encT1
  repeat rw [BitVec.extractLsb'_append_eq_of_le (by decide)]
  exact BitVec.extractLsb'_append_eq_right

@[simp] theorem encT1_rn (imm3 rn rd : BitVec 3) :
    (encT1 imm3 rn rd).extractLsb' 3 3 = rn := by
  unfold encT1
  repeat rw [BitVec.extractLsb'_append_eq_of_le (by decide)]
  exact BitVec.extractLsb'_append_eq_right

@[simp] theorem encT1_rd (imm3 rn rd : BitVec 3) :
    (encT1 imm3 rn rd).extractLsb' 0 3 = rd := by
  unfold encT1
  exact BitVec.extractLsb'_append_eq_right

theorem encT1_of_fields (w : Half) (hop : w.extractLsb' 9 7 = 0b0001111#7) :
    encT1 (w.extractLsb' 6 3) (w.extractLsb' 3 3) (w.extractLsb' 0 3) = w := by
  rw [encT1, ← hop]
  rw [BitVec.extractLsb'_append_extractLsb'_eq_extractLsb' (by rfl),
    BitVec.extractLsb'_append_extractLsb'_eq_extractLsb' (by rfl),
    BitVec.extractLsb'_append_extractLsb'_eq_extractLsb' (by rfl)]
  simp

/-! ## T2: the fields of the encoder, and a word from its fields -/

@[simp] theorem encT2_op (rdn : BitVec 3) (imm8 : BitVec 8) :
    (encT2 rdn imm8).extractLsb' 11 5 = 0b00111#5 := by
  unfold encT2
  repeat rw [BitVec.extractLsb'_append_eq_of_le (by decide)]
  simp

@[simp] theorem encT2_rdn (rdn : BitVec 3) (imm8 : BitVec 8) :
    (encT2 rdn imm8).extractLsb' 8 3 = rdn := by
  unfold encT2
  repeat rw [BitVec.extractLsb'_append_eq_of_le (by decide)]
  exact BitVec.extractLsb'_append_eq_right

@[simp] theorem encT2_imm8 (rdn : BitVec 3) (imm8 : BitVec 8) :
    (encT2 rdn imm8).extractLsb' 0 8 = imm8 := by
  unfold encT2
  exact BitVec.extractLsb'_append_eq_right

theorem encT2_of_fields (w : Half) (hop : w.extractLsb' 11 5 = 0b00111#5) :
    encT2 (w.extractLsb' 8 3) (w.extractLsb' 0 8) = w := by
  rw [encT2, ← hop]
  rw [BitVec.extractLsb'_append_extractLsb'_eq_extractLsb' (by rfl),
    BitVec.extractLsb'_append_extractLsb'_eq_extractLsb' (by rfl)]
  simp

/-! ## T3: the fields of the encoder, and a word from its fields -/

@[simp] theorem encT3_prefix (s i : BitVec 1) (rn : RegNum) (imm3 : BitVec 3) (rd : RegNum) (imm8 : BitVec 8) :
    (encT3 s i rn imm3 rd imm8).extractLsb' 27 5 = 0b11110#5 := by
  unfold encT3
  repeat rw [BitVec.extractLsb'_append_eq_of_le (by decide)]
  simp

@[simp] theorem encT3_i (s i : BitVec 1) (rn : RegNum) (imm3 : BitVec 3) (rd : RegNum) (imm8 : BitVec 8) :
    (encT3 s i rn imm3 rd imm8).extractLsb' 26 1 = i := by
  unfold encT3
  repeat rw [BitVec.extractLsb'_append_eq_of_le (by decide)]
  exact BitVec.extractLsb'_append_eq_right

@[simp] theorem encT3_op (s i : BitVec 1) (rn : RegNum) (imm3 : BitVec 3) (rd : RegNum) (imm8 : BitVec 8) :
    (encT3 s i rn imm3 rd imm8).extractLsb' 21 5 = 0b01101#5 := by
  unfold encT3
  repeat rw [BitVec.extractLsb'_append_eq_of_le (by decide)]
  exact BitVec.extractLsb'_append_eq_right

@[simp] theorem encT3_s (s i : BitVec 1) (rn : RegNum) (imm3 : BitVec 3) (rd : RegNum) (imm8 : BitVec 8) :
    (encT3 s i rn imm3 rd imm8).extractLsb' 20 1 = s := by
  unfold encT3
  repeat rw [BitVec.extractLsb'_append_eq_of_le (by decide)]
  exact BitVec.extractLsb'_append_eq_right

@[simp] theorem encT3_rn (s i : BitVec 1) (rn : RegNum) (imm3 : BitVec 3) (rd : RegNum) (imm8 : BitVec 8) :
    (encT3 s i rn imm3 rd imm8).extractLsb' 16 4 = rn := by
  unfold encT3
  repeat rw [BitVec.extractLsb'_append_eq_of_le (by decide)]
  exact BitVec.extractLsb'_append_eq_right

@[simp] theorem encT3_zero (s i : BitVec 1) (rn : RegNum) (imm3 : BitVec 3) (rd : RegNum) (imm8 : BitVec 8) :
    (encT3 s i rn imm3 rd imm8).extractLsb' 15 1 = 0#1 := by
  unfold encT3
  repeat rw [BitVec.extractLsb'_append_eq_of_le (by decide)]
  exact BitVec.extractLsb'_append_eq_right

@[simp] theorem encT3_imm3 (s i : BitVec 1) (rn : RegNum) (imm3 : BitVec 3) (rd : RegNum) (imm8 : BitVec 8) :
    (encT3 s i rn imm3 rd imm8).extractLsb' 12 3 = imm3 := by
  unfold encT3
  repeat rw [BitVec.extractLsb'_append_eq_of_le (by decide)]
  exact BitVec.extractLsb'_append_eq_right

@[simp] theorem encT3_rd (s i : BitVec 1) (rn : RegNum) (imm3 : BitVec 3) (rd : RegNum) (imm8 : BitVec 8) :
    (encT3 s i rn imm3 rd imm8).extractLsb' 8 4 = rd := by
  unfold encT3
  repeat rw [BitVec.extractLsb'_append_eq_of_le (by decide)]
  exact BitVec.extractLsb'_append_eq_right

@[simp] theorem encT3_imm8 (s i : BitVec 1) (rn : RegNum) (imm3 : BitVec 3) (rd : RegNum) (imm8 : BitVec 8) :
    (encT3 s i rn imm3 rd imm8).extractLsb' 0 8 = imm8 := by
  unfold encT3
  exact BitVec.extractLsb'_append_eq_right

theorem encT3_of_fields (w : Word) (hprefix : w.extractLsb' 27 5 = 0b11110#5)
    (hop : w.extractLsb' 21 5 = 0b01101#5)
    (hzero : w.extractLsb' 15 1 = 0#1) :
    encT3 (w.extractLsb' 20 1) (w.extractLsb' 26 1) (w.extractLsb' 16 4) (w.extractLsb' 12 3) (w.extractLsb' 8 4) (w.extractLsb' 0 8) = w := by
  rw [encT3, ← hprefix, ← hop, ← hzero]
  rw [BitVec.extractLsb'_append_extractLsb'_eq_extractLsb' (by rfl),
    BitVec.extractLsb'_append_extractLsb'_eq_extractLsb' (by rfl),
    BitVec.extractLsb'_append_extractLsb'_eq_extractLsb' (by rfl),
    BitVec.extractLsb'_append_extractLsb'_eq_extractLsb' (by rfl),
    BitVec.extractLsb'_append_extractLsb'_eq_extractLsb' (by rfl),
    BitVec.extractLsb'_append_extractLsb'_eq_extractLsb' (by rfl),
    BitVec.extractLsb'_append_extractLsb'_eq_extractLsb' (by rfl),
    BitVec.extractLsb'_append_extractLsb'_eq_extractLsb' (by rfl)]
  simp

/-! ## T4: the fields of the encoder, and a word from its fields -/

@[simp] theorem encT4_prefix (i : BitVec 1) (rn : RegNum) (imm3 : BitVec 3) (rd : RegNum) (imm8 : BitVec 8) :
    (encT4 i rn imm3 rd imm8).extractLsb' 27 5 = 0b11110#5 := by
  unfold encT4
  repeat rw [BitVec.extractLsb'_append_eq_of_le (by decide)]
  simp

@[simp] theorem encT4_i (i : BitVec 1) (rn : RegNum) (imm3 : BitVec 3) (rd : RegNum) (imm8 : BitVec 8) :
    (encT4 i rn imm3 rd imm8).extractLsb' 26 1 = i := by
  unfold encT4
  repeat rw [BitVec.extractLsb'_append_eq_of_le (by decide)]
  exact BitVec.extractLsb'_append_eq_right

@[simp] theorem encT4_op (i : BitVec 1) (rn : RegNum) (imm3 : BitVec 3) (rd : RegNum) (imm8 : BitVec 8) :
    (encT4 i rn imm3 rd imm8).extractLsb' 20 6 = 0b101010#6 := by
  unfold encT4
  repeat rw [BitVec.extractLsb'_append_eq_of_le (by decide)]
  exact BitVec.extractLsb'_append_eq_right

@[simp] theorem encT4_rn (i : BitVec 1) (rn : RegNum) (imm3 : BitVec 3) (rd : RegNum) (imm8 : BitVec 8) :
    (encT4 i rn imm3 rd imm8).extractLsb' 16 4 = rn := by
  unfold encT4
  repeat rw [BitVec.extractLsb'_append_eq_of_le (by decide)]
  exact BitVec.extractLsb'_append_eq_right

@[simp] theorem encT4_zero (i : BitVec 1) (rn : RegNum) (imm3 : BitVec 3) (rd : RegNum) (imm8 : BitVec 8) :
    (encT4 i rn imm3 rd imm8).extractLsb' 15 1 = 0#1 := by
  unfold encT4
  repeat rw [BitVec.extractLsb'_append_eq_of_le (by decide)]
  exact BitVec.extractLsb'_append_eq_right

@[simp] theorem encT4_imm3 (i : BitVec 1) (rn : RegNum) (imm3 : BitVec 3) (rd : RegNum) (imm8 : BitVec 8) :
    (encT4 i rn imm3 rd imm8).extractLsb' 12 3 = imm3 := by
  unfold encT4
  repeat rw [BitVec.extractLsb'_append_eq_of_le (by decide)]
  exact BitVec.extractLsb'_append_eq_right

@[simp] theorem encT4_rd (i : BitVec 1) (rn : RegNum) (imm3 : BitVec 3) (rd : RegNum) (imm8 : BitVec 8) :
    (encT4 i rn imm3 rd imm8).extractLsb' 8 4 = rd := by
  unfold encT4
  repeat rw [BitVec.extractLsb'_append_eq_of_le (by decide)]
  exact BitVec.extractLsb'_append_eq_right

@[simp] theorem encT4_imm8 (i : BitVec 1) (rn : RegNum) (imm3 : BitVec 3) (rd : RegNum) (imm8 : BitVec 8) :
    (encT4 i rn imm3 rd imm8).extractLsb' 0 8 = imm8 := by
  unfold encT4
  exact BitVec.extractLsb'_append_eq_right

theorem encT4_of_fields (w : Word) (hprefix : w.extractLsb' 27 5 = 0b11110#5)
    (hop : w.extractLsb' 20 6 = 0b101010#6)
    (hzero : w.extractLsb' 15 1 = 0#1) :
    encT4 (w.extractLsb' 26 1) (w.extractLsb' 16 4) (w.extractLsb' 12 3) (w.extractLsb' 8 4) (w.extractLsb' 0 8) = w := by
  rw [encT4, ← hprefix, ← hop, ← hzero]
  rw [BitVec.extractLsb'_append_extractLsb'_eq_extractLsb' (by rfl),
    BitVec.extractLsb'_append_extractLsb'_eq_extractLsb' (by rfl),
    BitVec.extractLsb'_append_extractLsb'_eq_extractLsb' (by rfl),
    BitVec.extractLsb'_append_extractLsb'_eq_extractLsb' (by rfl),
    BitVec.extractLsb'_append_extractLsb'_eq_extractLsb' (by rfl),
    BitVec.extractLsb'_append_extractLsb'_eq_extractLsb' (by rfl),
    BitVec.extractLsb'_append_extractLsb'_eq_extractLsb' (by rfl)]
  simp

/-! ## T5: the fields of the encoder, and a word from its fields -/

@[simp] theorem encT5_op (rn : RegNum) (imm8 : BitVec 8) :
    (encT5 rn imm8).extractLsb' 20 12 = 0b111100111101#12 := by
  unfold encT5
  repeat rw [BitVec.extractLsb'_append_eq_of_le (by decide)]
  simp

@[simp] theorem encT5_rn (rn : RegNum) (imm8 : BitVec 8) :
    (encT5 rn imm8).extractLsb' 16 4 = rn := by
  unfold encT5
  repeat rw [BitVec.extractLsb'_append_eq_of_le (by decide)]
  exact BitVec.extractLsb'_append_eq_right

@[simp] theorem encT5_low (rn : RegNum) (imm8 : BitVec 8) :
    (encT5 rn imm8).extractLsb' 8 8 = 0b10001111#8 := by
  unfold encT5
  repeat rw [BitVec.extractLsb'_append_eq_of_le (by decide)]
  exact BitVec.extractLsb'_append_eq_right

@[simp] theorem encT5_imm8 (rn : RegNum) (imm8 : BitVec 8) :
    (encT5 rn imm8).extractLsb' 0 8 = imm8 := by
  unfold encT5
  exact BitVec.extractLsb'_append_eq_right

theorem encT5_of_fields (w : Word) (hop : w.extractLsb' 20 12 = 0b111100111101#12)
    (hlow : w.extractLsb' 8 8 = 0b10001111#8) :
    encT5 (w.extractLsb' 16 4) (w.extractLsb' 0 8) = w := by
  rw [encT5, ← hop, ← hlow]
  rw [BitVec.extractLsb'_append_extractLsb'_eq_extractLsb' (by rfl),
    BitVec.extractLsb'_append_extractLsb'_eq_extractLsb' (by rfl),
    BitVec.extractLsb'_append_extractLsb'_eq_extractLsb' (by rfl)]
  simp

/-! ## The masks and matches of spec/opcode_table.json as fields -/

theorem and_eq_iff_bits {n : Nat} (w m v : BitVec n) :
    w &&& m = v ↔ ∀ k, k < n → (w.getLsbD k && m.getLsbD k) = v.getLsbD k := by
  refine ⟨fun h k _ => by rw [← BitVec.getLsbD_and, h], fun h => BitVec.eq_of_getLsbD_eq fun k hk => ?_⟩
  rw [BitVec.getLsbD_and, h k hk]

theorem extract_eq_iff_bits {n len : Nat} (w : BitVec n) (lo : Nat) (v : BitVec len) :
    w.extractLsb' lo len = v ↔ ∀ k, k < len → w.getLsbD (lo + k) = v.getLsbD k := by
  refine ⟨fun h k hk => by rw [← h, BitVec.getLsbD_extractLsb']; simp [hk],
    fun h => BitVec.eq_of_getLsbD_eq fun k hk => ?_⟩
  rw [BitVec.getLsbD_extractLsb', h k hk]; simp [hk]

theorem maskA1 (w : Word) : w &&& 0x0FE00000#32 = 0x02400000#32 ↔
    w.extractLsb' 21 7 = 0b0010010#7 := by
  simp only [and_eq_iff_bits, extract_eq_iff_bits, Nat.forall_lt_succ_right, Nat.not_lt_zero]
  simp

theorem maskT1 (w : Half) : w &&& 0xFE00#16 = 0x1E00#16 ↔
    w.extractLsb' 9 7 = 0b0001111#7 := by
  simp only [and_eq_iff_bits, extract_eq_iff_bits, Nat.forall_lt_succ_right, Nat.not_lt_zero]
  simp

theorem maskT2 (w : Half) : w &&& 0xF800#16 = 0x3800#16 ↔
    w.extractLsb' 11 5 = 0b00111#5 := by
  simp only [and_eq_iff_bits, extract_eq_iff_bits, Nat.forall_lt_succ_right, Nat.not_lt_zero]
  simp

theorem maskT3 (w : Word) : w &&& 0xFBE08000#32 = 0xF1A00000#32 ↔
    w.extractLsb' 27 5 = 0b11110#5 ∧ w.extractLsb' 21 5 = 0b01101#5 ∧ w.extractLsb' 15 1 = 0#1 := by
  simp only [and_eq_iff_bits, extract_eq_iff_bits, Nat.forall_lt_succ_right, Nat.not_lt_zero]
  simp
  tauto

theorem maskT4 (w : Word) : w &&& 0xFBF08000#32 = 0xF2A00000#32 ↔
    w.extractLsb' 27 5 = 0b11110#5 ∧ w.extractLsb' 20 6 = 0b101010#6 ∧ w.extractLsb' 15 1 = 0#1 := by
  simp only [and_eq_iff_bits, extract_eq_iff_bits, Nat.forall_lt_succ_right, Nat.not_lt_zero]
  simp
  tauto

theorem maskT5 (w : Word) : w &&& 0xFFF0D000#32 = 0xF3D08000#32 ↔
    w.extractLsb' 20 12 = 0b111100111101#12 ∧ w.extractLsb' 14 2 = 0b10#2 ∧ w.extractLsb' 12 1 = 0#1 := by
  simp only [and_eq_iff_bits, extract_eq_iff_bits, Nat.forall_lt_succ_right, Nat.not_lt_zero]
  simp
  tauto

/-- Decoding the bytes of a 32-bit T32 pair is decoding the pair. -/
theorem decodeT32Bytes_pairBytes (w : Word) (rest : List Byte) (i : Instr) (hl : w.extractLsb' 27 5 = 0b11110#5)
    (hd : decodeT32 w = .ok i) : decodeT32Bytes (pairBytes w ++ rest) = .ok (i, rest) := by
  have h1 : ∀ b0 b1 b2 b3 : Byte, isT32Long (halfOf b0 b1) = true →
      decodeT32 (halfOf b0 b1 ++ halfOf b2 b3) = .ok i →
      decodeT32Bytes (b0 :: b1 :: b2 :: b3 :: rest) = .ok (i, rest) := by
    intro b0 b1 b2 b3 h h2
    simp only [decodeT32Bytes, h, if_true, h2]
  have hlong : isT32Long (w.extractLsb' 16 16) = true := by
    unfold isT32Long
    rw [extract_extract _ _ _ _ _ (by decide), show 16 + 11 = 27 from rfl, hl]
    rfl
  apply h1
  · rw [halfOf_extract]
    exact hlong
  · rw [halfOf_extract, halfOf_extract, pair_extract, hd]

end Sys2Proof
end

