-- ==== Sys2Proof/Laws/State.lean ====
section
/-! SUPPORT. One lemma per field and update of State. -/

namespace Sys2Proof.Machine

@[simp] theorem setPc_pc (s : State) (a : Word) : (s.setPc a).pc = a := rfl
@[simp] theorem setPc_regs (s : State) (a : Word) : (s.setPc a).regs = s.regs := rfl
@[simp] theorem setPc_spsr (s : State) (a : Word) : (s.setPc a).spsr = s.spsr := rfl
@[simp] theorem setPc_elrHyp (s : State) (a : Word) : (s.setPc a).elrHyp = s.elrHyp := rfl
@[simp] theorem setPc_pstate (s : State) (a : Word) : (s.setPc a).pstate = s.pstate := rfl
@[simp] theorem setPc_mem (s : State) (a : Word) : (s.setPc a).mem = s.mem := rfl
@[simp] theorem setPc_sys (s : State) (a : Word) : (s.setPc a).sys = s.sys := rfl
@[simp] theorem setPc_par (s : State) (a : Word) : (s.setPc a).par = s.par := rfl
@[simp] theorem setPc_exclusive (s : State) (a : Word) : (s.setPc a).exclusive = s.exclusive := rfl
@[simp] theorem setPc_event (s : State) (a : Word) : (s.setPc a).event = s.event := rfl
@[simp] theorem setPc_draws (s : State) (a : Word) : (s.setPc a).draws = s.draws := rfl

@[simp] theorem setFlags_pc (s : State) (f : Nzcv) : (s.setFlags f).pc = s.pc := rfl
@[simp] theorem setFlags_regs (s : State) (f : Nzcv) : (s.setFlags f).regs = s.regs := rfl
@[simp] theorem setFlags_spsr (s : State) (f : Nzcv) : (s.setFlags f).spsr = s.spsr := rfl
@[simp] theorem setFlags_elrHyp (s : State) (f : Nzcv) : (s.setFlags f).elrHyp = s.elrHyp := rfl
@[simp] theorem setFlags_pstate (s : State) (f : Nzcv) :
    (s.setFlags f).pstate = { s.pstate with flags := f } := rfl
@[simp] theorem setFlags_mem (s : State) (f : Nzcv) : (s.setFlags f).mem = s.mem := rfl
@[simp] theorem setFlags_sys (s : State) (f : Nzcv) : (s.setFlags f).sys = s.sys := rfl
@[simp] theorem setFlags_par (s : State) (f : Nzcv) : (s.setFlags f).par = s.par := rfl
@[simp] theorem setFlags_exclusive (s : State) (f : Nzcv) : (s.setFlags f).exclusive = s.exclusive := rfl
@[simp] theorem setFlags_event (s : State) (f : Nzcv) : (s.setFlags f).event = s.event := rfl
@[simp] theorem setFlags_draws (s : State) (f : Nzcv) : (s.setFlags f).draws = s.draws := rfl

@[simp] theorem setIT_pc (s : State) (it : BitVec 8) : (s.setIT it).pc = s.pc := rfl
@[simp] theorem setIT_regs (s : State) (it : BitVec 8) : (s.setIT it).regs = s.regs := rfl
@[simp] theorem setIT_spsr (s : State) (it : BitVec 8) : (s.setIT it).spsr = s.spsr := rfl
@[simp] theorem setIT_elrHyp (s : State) (it : BitVec 8) : (s.setIT it).elrHyp = s.elrHyp := rfl
@[simp] theorem setIT_pstate (s : State) (it : BitVec 8) :
    (s.setIT it).pstate = { s.pstate with it := it } := rfl
@[simp] theorem setIT_mem (s : State) (it : BitVec 8) : (s.setIT it).mem = s.mem := rfl
@[simp] theorem setIT_sys (s : State) (it : BitVec 8) : (s.setIT it).sys = s.sys := rfl
@[simp] theorem setIT_par (s : State) (it : BitVec 8) : (s.setIT it).par = s.par := rfl
@[simp] theorem setIT_exclusive (s : State) (it : BitVec 8) : (s.setIT it).exclusive = s.exclusive := rfl
@[simp] theorem setIT_event (s : State) (it : BitVec 8) : (s.setIT it).event = s.event := rfl
@[simp] theorem setIT_draws (s : State) (it : BitVec 8) : (s.setIT it).draws = s.draws := rfl

@[simp] theorem setT_pc (s : State) (t : Bool) : (s.setT t).pc = s.pc := rfl
@[simp] theorem setT_regs (s : State) (t : Bool) : (s.setT t).regs = s.regs := rfl
@[simp] theorem setT_spsr (s : State) (t : Bool) : (s.setT t).spsr = s.spsr := rfl
@[simp] theorem setT_elrHyp (s : State) (t : Bool) : (s.setT t).elrHyp = s.elrHyp := rfl
@[simp] theorem setT_pstate (s : State) (t : Bool) : (s.setT t).pstate = { s.pstate with t := t } := rfl
@[simp] theorem setT_mem (s : State) (t : Bool) : (s.setT t).mem = s.mem := rfl
@[simp] theorem setT_sys (s : State) (t : Bool) : (s.setT t).sys = s.sys := rfl
@[simp] theorem setT_par (s : State) (t : Bool) : (s.setT t).par = s.par := rfl
@[simp] theorem setT_exclusive (s : State) (t : Bool) : (s.setT t).exclusive = s.exclusive := rfl
@[simp] theorem setT_event (s : State) (t : Bool) : (s.setT t).event = s.event := rfl
@[simp] theorem setT_draws (s : State) (t : Bool) : (s.setT t).draws = s.draws := rfl

/-- A register write changes the register file alone. -/
theorem writeReg_eq (n : RegNum) (v : Word) (s : State) :
    writeReg n v s = { s with regs := (writeReg n v s).regs } := by
  unfold writeReg; split <;> rfl

@[simp] theorem writeReg_pc (n : RegNum) (v : Word) (s : State) : (writeReg n v s).pc = s.pc := by
  rw [writeReg_eq]
@[simp] theorem writeReg_spsr (n : RegNum) (v : Word) (s : State) : (writeReg n v s).spsr = s.spsr := by
  rw [writeReg_eq]
@[simp] theorem writeReg_elrHyp (n : RegNum) (v : Word) (s : State) : (writeReg n v s).elrHyp = s.elrHyp := by
  rw [writeReg_eq]
@[simp] theorem writeReg_pstate (n : RegNum) (v : Word) (s : State) : (writeReg n v s).pstate = s.pstate := by
  rw [writeReg_eq]
@[simp] theorem writeReg_mem (n : RegNum) (v : Word) (s : State) : (writeReg n v s).mem = s.mem := by
  rw [writeReg_eq]
@[simp] theorem writeReg_sys (n : RegNum) (v : Word) (s : State) : (writeReg n v s).sys = s.sys := by
  rw [writeReg_eq]
@[simp] theorem writeReg_par (n : RegNum) (v : Word) (s : State) : (writeReg n v s).par = s.par := by
  rw [writeReg_eq]
@[simp] theorem writeReg_exclusive (n : RegNum) (v : Word) (s : State) :
    (writeReg n v s).exclusive = s.exclusive := by
  rw [writeReg_eq]
@[simp] theorem writeReg_event (n : RegNum) (v : Word) (s : State) : (writeReg n v s).event = s.event := by
  rw [writeReg_eq]
@[simp] theorem writeReg_draws (n : RegNum) (v : Word) (s : State) : (writeReg n v s).draws = s.draws := by
  rw [writeReg_eq]

end Sys2Proof.Machine
end

