-- ==== Sys2Proof/Laws/Registers.lean ====
section
/-! SUPPORT. The laws of the banked register file. -/

namespace Sys2Proof.Machine

@[simp] theorem spFile_get_set (f : SpFile) (b c : SpBank) (v : Word) :
    (f.set b v).get c = if b = c then v else f.get c := by
  cases b <;> cases c <;> rfl

@[simp] theorem lrFile_get_set (f : LrFile) (b c : LrBank) (v : Word) :
    (f.set b v).get c = if b = c then v else f.get c := by
  cases b <;> cases c <;> rfl

/-- A write is read back from its own physical register and from no other. -/
theorem regFile_get_set (f : RegFile) (p q : PhysReg) (v : Word) :
    (f.set p v).get q = if p = q then v else f.get q := by
  cases p with
  | low n =>
    cases q with
    | low k => simp [RegFile.set, RegFile.get, Vector.getElem_set, Fin.ext_iff]
    | mid fiq k => simp [RegFile.set, RegFile.get]
    | sp b => simp [RegFile.set, RegFile.get]
    | lr b => simp [RegFile.set, RegFile.get]
  | mid fiq n =>
    cases q with
    | mid fiq' k =>
      cases fiq <;> cases fiq' <;> simp [RegFile.set, RegFile.get, Vector.getElem_set, Fin.ext_iff]
    | low k => cases fiq <;> simp [RegFile.set, RegFile.get]
    | sp b => cases fiq <;> simp [RegFile.set, RegFile.get]
    | lr b => cases fiq <;> simp [RegFile.set, RegFile.get]
  | sp b =>
    cases q with
    | sp c => simp [RegFile.set, RegFile.get]
    | low k => simp [RegFile.set, RegFile.get]
    | mid fiq k => simp [RegFile.set, RegFile.get]
    | lr c => simp [RegFile.set, RegFile.get]
  | lr b =>
    cases q with
    | lr c => simp [RegFile.set, RegFile.get]
    | low k => simp [RegFile.set, RegFile.get]
    | mid fiq k => simp [RegFile.set, RegFile.get]
    | sp c => simp [RegFile.set, RegFile.get]

/-- Two register files that agree on every physical register are equal. -/
theorem regFile_ext (f g : RegFile) (h : ∀ p, f.get p = g.get p) : f = g := by
  obtain ⟨fl, fu, ff, fs, fr⟩ := f
  obtain ⟨gl, gu, gf, gs, gr⟩ := g
  obtain ⟨⟩ := fs
  obtain ⟨⟩ := fr
  obtain ⟨⟩ := gs
  obtain ⟨⟩ := gr
  have h1 : fl = gl := Vector.ext fun i hi => h (.low ⟨i, hi⟩)
  have h2 : fu = gu := Vector.ext fun i hi => h (.mid false ⟨i, hi⟩)
  have h3 : ff = gf := Vector.ext fun i hi => h (.mid true ⟨i, hi⟩)
  have s1 := h (.sp .usr); have s2 := h (.sp .hyp); have s3 := h (.sp .svc); have s4 := h (.sp .abt)
  have s5 := h (.sp .und); have s6 := h (.sp .mon); have s7 := h (.sp .irq); have s8 := h (.sp .fiq)
  have l1 := h (.lr .usr); have l2 := h (.lr .svc); have l3 := h (.lr .abt); have l4 := h (.lr .und)
  have l5 := h (.lr .mon); have l6 := h (.lr .irq); have l7 := h (.lr .fiq)
  simp only [RegFile.get, SpFile.get, LrFile.get] at s1 s2 s3 s4 s5 s6 s7 s8 l1 l2 l3 l4 l5 l6 l7
  subst h1 h2 h3 s1 s2 s3 s4 s5 s6 s7 s8 l1 l2 l3 l4 l5 l6 l7
  rfl

/-- Writes to two physical registers commute. -/
theorem regFile_set_comm (f : RegFile) (p q : PhysReg) (v w : Word) (h : p ≠ q) :
    (f.set p v).set q w = (f.set q w).set p v := by
  apply regFile_ext
  intro x
  simp only [regFile_get_set]
  by_cases h1 : q = x
  · subst h1; simp [h]
  · simp [h1]

/-- Every register number but 15 names a physical register; 15 names none (R20, R23). -/
theorem physReg_eq_none (m : Mode) (n : RegNum) : physReg m n = none ↔ n = regPC := by
  cases m <;> revert n <;> decide

/-- A register read outside the PC is the physical register's value. -/
theorem readReg_of_physReg (a : Bool) (n : RegNum) (s : State) (p : PhysReg)
    (h : physReg s.pstate.m n = some p) : readReg a n s = s.regs.get p := by
  simp [readReg, h]

/-- Reading the PC as an operand (R23). -/
theorem readReg_pc (a : Bool) (s : State) : readReg a regPC s = s.pc + (if a then 8#32 else 4#32) := by
  have h := (physReg_eq_none s.pstate.m regPC).2 rfl
  simp [readReg, h]

/-- A register write outside the PC writes the physical register. -/
theorem writeReg_of_physReg (n : RegNum) (v : Word) (s : State) (p : PhysReg)
    (h : physReg s.pstate.m n = some p) : writeReg n v s = { s with regs := s.regs.set p v } := by
  simp [writeReg, h]

end Sys2Proof.Machine
end

