-- ==== Sys2Proof/Laws/Ops.lean ====
section
/-! SUPPORT. One lemma per shared operation: everything it can do when it answers a next state, ending in
`exec_next`, which every invariant and frame over all instructions cites instead of unfolding exec. -/

namespace Sys2Proof.Machine

/-- The state Complete leaves. -/
def completed (x : Decoded) (s : State) : State :=
  (s.setPc (s.pc + BitVec.ofNat 32 x.len)).setIT (itAfter x s.pstate.it)

theorem complete_next {x : Decoded} {s t : State} :
    complete x s = .next t ↔ s.pc.toNat + x.len < 2 ^ 32 ∧ t = completed x s := by
  unfold complete completed
  split <;> simp_all [eq_comm]

theorem complete_not_fault {x : Decoded} {s : State} {r : Fault} : complete x s ≠ .fault r := by
  unfold complete; split <;> simp

theorem takeUndefinedInstruction_next {a : Bool} {bits : Word} {s t : State} :
    takeUndefinedInstruction a bits s = .next t ↔
      s.par.exceptions = .entered ∧ takenToUndefinedMode s = true ∧ t = enterUndefinedMode a s := by
  unfold takeUndefinedInstruction
  cases h : s.par.exceptions with
  | terminal => simp
  | entered => by_cases h2 : takenToUndefinedMode s = true <;> simp [h2, eq_comm]

theorem bxWritePC_next {a : Word} {s t : State} :
    bxWritePC a s = .next t ↔
      (a.getLsbD 0 = true ∧ t = (s.setT true).setPc (alignT32 a)) ∨
      (a.getLsbD 0 = false ∧ a.getLsbD 1 = false ∧ t = (s.setT false).setPc a) ∨
      (a.getLsbD 0 = false ∧ a.getLsbD 1 = true ∧ s.par.a32ForceAlignPC = .clears ∧
        t = (s.setT false).setPc (alignA32 a)) ∨
      (a.getLsbD 0 = false ∧ a.getLsbD 1 = true ∧ s.par.a32ForceAlignPC = .leaves ∧
        t = (s.setT false).setPc a) := by
  unfold bxWritePC
  cases h0 : a.getLsbD 0 <;> cases h1 : a.getLsbD 1 <;> cases h2 : s.par.a32ForceAlignPC <;>
    simp [eq_comm]

theorem exceptionReturn_next {a spsr : Word} {s t : State} :
    exceptionReturn a spsr s = .next t ↔
      (legalReturn s spsr = true ∧ t = returnState true a spsr s) ∨
      (legalReturn s spsr = false ∧ s.par.exceptions = .entered ∧ t = returnState false a spsr s) := by
  unfold exceptionReturn
  cases h : legalReturn s spsr with
  | true => simp [eq_comm]
  | false => cases h2 : s.par.exceptions <;> simp [eq_comm]

/-- What an instruction whose decode gave `x` can have done when it answers `t`. -/
inductive Effect (x : Decoded) (s t : State) : Prop where
  /-- Its condition failed, or it ran as a NOP in User or System mode: it only completed. -/
  | passed (hpc : s.pc.toNat + x.len < 2 ^ 32) (ht : t = completed x s)
  /-- It wrote its destination, no PC, and completed. -/
  | wrote (hc : conditionPassed x.cond s = true) (hd : x.d ≠ regPC) (hpc : s.pc.toNat + x.len < 2 ^ 32)
      (ht : t = completed x (writeResult x (addWithCarry (readReg x.isA32 x.n s) (~~~x.imm32) true).1
        (addWithCarry (readReg x.isA32 x.n s) (~~~x.imm32) true).2 s))
  /-- It branched (destination PC, no flags). -/
  | branched (hc : conditionPassed x.cond s = true) (hd : x.d = regPC) (hf : x.setflags = false)
      (ht : aluWritePC x (addWithCarry (readReg x.isA32 x.n s) (~~~x.imm32) true).1 s = .next t)
  /-- It returned from an exception; `legal` says by a legal return. -/
  | returned (b : SpsrBank) (legal : Bool) (hc : conditionPassed x.cond s = true) (hd : x.d = regPC) (hf : x.setflags = true)
      (hm : s.pstate.m ≠ .hyp) (hb : s.pstate.m.spsrBank = some b)
      (hl : legalReturn s (s.spsr.get b) = legal)
      (he : legal = true ∨ s.par.exceptions = .entered)
      (ht : t = returnState legal (addWithCarry (readReg x.isA32 x.n s) (~~~x.imm32) true).1 (s.spsr.get b) s)
  /-- It was UNDEFINED in User or System mode and the exception was entered. (One from Hyp mode is not entered.) -/
  | entered (hc : conditionPassed x.cond s = true) (hd : x.d = regPC) (hf : x.setflags = true)
      (hm : s.pstate.m = .usr ∨ s.pstate.m = .sys) (hn : s.par.aluExcReturnUserSys = .undefined)
      (he : s.par.exceptions = .entered)
      (hu : takenToUndefinedMode s = true) (ht : t = enterUndefinedMode x.isA32 s)

/-- User and System are the modes without an SPSR (R22). -/
theorem spsrBank_eq_none {m : Mode} : m.spsrBank = none ↔ m = .usr ∨ m = .sys := by cases m <;> decide

theorem aluExceptionReturn_effect {x : Decoded} {s t : State} (hc : conditionPassed x.cond s = true) (hd : x.d = regPC) (hf : x.setflags = true)
    (h : aluExceptionReturn x (addWithCarry (readReg x.isA32 x.n s) (~~~x.imm32) true).1 s = .next t) :
    Effect x s t := by
  unfold aluExceptionReturn at h
  split at h
  · rename_i hm
    obtain ⟨_, h2, _⟩ := takeUndefinedInstruction_next.1 h
    simp [takenToUndefinedMode, hm] at h2
  · rename_i hm
    split at h
    · rename_i hb
      unfold userSysReturn at h
      split at h
      · cases h
      · rename_i hn
        obtain ⟨h1, h2, h3⟩ := takeUndefinedInstruction_next.1 h
        exact .entered hc hd hf (spsrBank_eq_none.1 hb) hn h1 h2 h3
      · obtain ⟨h1, h2⟩ := complete_next.1 h
        exact .passed h1 h2
    · rename_i b hb
      obtain ⟨h1, h2⟩ | ⟨h1, h2, h3⟩ := exceptionReturn_next.1 h
      · exact .returned b true hc hd hf hm hb h1 (.inl rfl) h2
      · exact .returned b false hc hd hf hm hb h1 (.inr h2) h3

@[simp] theorem writeResult_pc (x : Decoded) (v : Word) (f : Nzcv) (s : State) :
    (writeResult x v f s).pc = s.pc := by
  unfold writeResult; split <;> simp

/-- Everything the Operation can do. -/
theorem subImmediate_next {x : Decoded} {s t : State} (h : subImmediate x s = .next t) : Effect x s t := by
  unfold subImmediate at h
  split at h
  · cases h
  · rename_i c hcc
    split at h
    · rename_i hch
      have hc : conditionPassed x.cond s = true := by simp [conditionPassed, hcc, hch]
      simp only [executePassed] at h
      split at h
      · rename_i hd
        split at h
        · exact aluExceptionReturn_effect hc hd ‹_› h
        · rename_i hf
          exact .branched hc hd (Bool.eq_false_of_not_eq_true hf) h
      · rename_i hd
        obtain ⟨h1, h2⟩ := complete_next.1 h
        rw [writeResult_pc] at h1
        exact .wrote hc hd h1 h2
    · obtain ⟨h1, h2⟩ := complete_next.1 h
      exact .passed h1 h2

/-- What the decode of an instruction gives the Operation in a state. -/
def decodedOf (s : State) : Instr → Decoded
  | .subA1 cond rn rd imm12 => decodedA1 false (.subA1 cond rn rd imm12) cond rn rd imm12
  | .subsA1 cond rn rd imm12 => decodedA1 true (.subsA1 cond rn rd imm12) cond rn rd imm12
  | .subT1 imm3 rn rd => decodedT1 imm3 rn rd s.pstate.it
  | .subT2 rdn imm8 => decodedT2 rdn imm8 s.pstate.it
  | .subT3 i rn imm3 rd imm8 => decodedT3 false (.subT3 i rn imm3 rd imm8) i rn imm3 rd imm8
  | .subsT3 i rn imm3 rd imm8 => decodedT3 true (.subsT3 i rn imm3 rd imm8) i rn imm3 rd imm8
  | .subwT4 i rn imm3 rd imm8 => decodedT4 i rn imm3 rd imm8
  | .subsPcLrT5 rn imm8 => decodedT5 rn imm8

/-- exec is the Operation on what the decode gives, but for T5 inside an IT block and not last (R62). -/
theorem exec_eq (i : Instr) (s : State) (h : ∀ rn imm8, i = .subsPcLrT5 rn imm8 →
    (inITBlock s.pstate.it && !lastInITBlock s.pstate.it) = false) :
    exec i s = subImmediate (decodedOf s i) s := by
  cases i with
  | subA1 cond rn rd imm12 => rfl
  | subsA1 cond rn rd imm12 => rfl
  | subT1 imm3 rn rd => rfl
  | subT2 rdn imm8 => rfl
  | subT3 i rn imm3 rd imm8 => rfl
  | subsT3 i rn imm3 rd imm8 => rfl
  | subwT4 i rn imm3 rd imm8 => rfl
  | subsPcLrT5 rn imm8 => simp [exec, execSubsPcLrT5, h rn imm8 rfl, decodedOf]

/-- Everything an instruction can do. -/
theorem exec_next {i : Instr} {s t : State} (h : exec i s = .next t) : Effect (decodedOf s i) s t := by
  apply subImmediate_next
  rw [← exec_eq i s ?_]
  · exact h
  · rintro rn imm8 rfl
    simp only [exec, execSubsPcLrT5] at h
    split at h
    · cases h
    · rename_i hit
      exact Bool.eq_false_of_not_eq_true hit

@[simp] theorem decodedOf_isA32 (s : State) (i : Instr) : (decodedOf s i).isA32 = i.isA32 := by cases i <;> rfl

@[simp] theorem decodedOf_len (s : State) (i : Instr) : (decodedOf s i).len = i.length := by cases i <;> rfl

@[simp] theorem decodedOf_bits (s : State) (i : Instr) : (decodedOf s i).bits = encodeBits i := by cases i <;> rfl

@[simp] theorem decodedOf_cond (s : State) (i : Instr) : (decodedOf s i).cond = condField i := by cases i <;> rfl

/-- Everything a step can do: the exception entry from the Illegal Execution state, or the instruction decoded from
the bytes fetched. -/
theorem step_next {s t : State} (h : step s = .next t) :
    (s.pstate.il = true ∧ s.par.exceptions = .entered ∧ takenToUndefinedMode s = true ∧
      t = enterUndefinedMode (!s.pstate.t) s) ∨
    (s.pstate.il = false ∧ ∃ bytes i rest, fetch s = .next bytes ∧ decode s.pstate.t bytes = .ok (i, rest) ∧
      exec i s = .next t) := by
  unfold step at h
  split at h
  · cases h
  · cases h
  · rename_i bytes hf
    split at h
    · rename_i hil
      obtain ⟨h1, h2, h3⟩ := takeUndefinedInstruction_next.1 h
      exact .inl ⟨hil, h1, h2, h3⟩
    · rename_i hil
      split at h
      · rename_i e _
        cases e with
        | unpredictable c => cases c <;> cases h
        | notThisInstruction c => cases h
        | shouldBeBits => cases h
        | t32ExpandImmZeroByte => cases h
        | truncated => cases h
      · rename_i i rest hd
        exact .inr ⟨by simpa using hil, bytes, i, rest, hf, hd, h⟩

end Sys2Proof.Machine
end

