-- ==== Sys2Proof/Laws/Operation.lean ====
section
/-! SUPPORT. The Operation in closed form: the subtraction's value (R71), what an instruction whose condition passed
or failed answers, the branch targets as masks. Provers cite these instead of unfolding the shared operations. -/

namespace Sys2Proof.Machine

/-! ## The subtraction (R10, R71) -/

theorem addWithCarry_sub_fst (x y : Word) : (addWithCarry x (~~~y) true).1 = x - y := by
  apply BitVec.eq_of_toNat_eq
  simp [addWithCarry]
  omega

theorem addWithCarry_sub_snd (x y : Word) : (addWithCarry x (~~~y) true).2 = subFlags x y := by
  have h1 := addWithCarry_sub_fst x y
  have hx := x.isLt
  have hy := y.isLt
  have hxi := BitVec.toInt_eq_toNat_cond x
  have hyi := BitVec.toInt_eq_toNat_cond y
  simp only [addWithCarry] at h1 ⊢
  rw [h1]
  simp only [subFlags, Nzcv.mk.injEq]
  refine ⟨trivial, ?_, ?_, ?_⟩
  · rw [Bool.eq_iff_iff]
    simp only [beq_iff_eq]
    bv_omega
  · rw [Bool.eq_iff_iff]
    simp
    omega
  · have hn : (~~~y).toInt = - y.toInt - 1 := by
      rw [BitVec.toInt_not, BitVec.toInt_eq_toNat_cond]
      simp [Int.bmod]
      omega
    have hs : (x - y).toInt = (x.toInt - y.toInt).bmod (2 ^ 32) := BitVec.toInt_sub
    rw [hs, hn, Bool.eq_iff_iff]
    simp [Int.bmod]
    split at hxi <;> split at hyi <;> omega

/-- What the Operation's AddWithCarry gives: the difference and the flags of the subtraction. -/
theorem addWithCarry_sub (x y : Word) : addWithCarry x (~~~y) true = (x - y, subFlags x y) :=
  Prod.ext (addWithCarry_sub_fst x y) (addWithCarry_sub_snd x y)

/-! ## The decode values of an instruction -/

@[simp] theorem decodedOf_d (s : State) (i : Instr) : (decodedOf s i).d = destOf i := by cases i <;> rfl

@[simp] theorem decodedOf_imm32 (s : State) (i : Instr) : (decodedOf s i).imm32 = immOf i := by cases i <;> rfl

@[simp] theorem decodedOf_setflags (s : State) (i : Instr) :
    (decodedOf s i).setflags = setsFlags s.pstate.it i := by cases i <;> rfl

/-- The first operand the Operation reads. -/
theorem readReg_decodedOf (s : State) (i : Instr) : readReg i.isA32 (decodedOf s i).n s = operandOf s i := by
  cases i <;> rfl

/-- exec is the Operation wherever R62's test on the IT state passes. -/
theorem exec_eq_subImmediate (i : Instr) (s : State) (h : itPlaceOk s.pstate.it i = true) :
    exec i s = subImmediate (decodedOf s i) s := by
  apply exec_eq
  rintro rn imm8 rfl
  simp only [itPlaceOk] at h
  cases h1 : inITBlock s.pstate.it <;> cases h2 : lastInITBlock s.pstate.it <;> simp_all

/-- The Operation of an instruction whose condition passed. -/
theorem exec_passed (i : Instr) (s : State) (h : itPlaceOk s.pstate.it i = true)
    (hc : conditionPassed (condField i) s = true) : exec i s = executePassed (decodedOf s i) s := by
  rw [exec_eq_subImmediate i s h]
  unfold conditionPassed at hc
  split at hc
  · rename_i c hcc
    simp [subImmediate, hcc, hc]
  · cases hc

/-! ## Complete (R82, R95) -/

theorem complete_of_lt (x : Decoded) (s : State) (h : s.pc.toNat + x.len < 2 ^ 32) :
    complete x s = .next (completed x s) := complete_next.2 ⟨h, rfl⟩

theorem complete_of_wrap (x : Decoded) (s : State) (h : 2 ^ 32 ≤ s.pc.toNat + x.len) :
    complete x s = .refused .pcWrap := by
  unfold complete
  split
  · omega
  · rfl

/-- Complete on an instruction is passedOver. -/
theorem completed_decodedOf (i : Instr) (s : State) : completed (decodedOf s i) s = passedOver i s := by
  simp [completed, passedOver, State.setPc, State.setIT, itAfter]

/-- The state a register write leaves, completed, is resultState. -/
theorem completed_writeResult (i : Instr) (x : Decoded) (s : State) (v : Word) (f : Nzcv)
    (hx : x.isA32 = i.isA32) (hl : x.len = i.length) :
    completed x (writeResult x v f s) = resultState i x.d v (if x.setflags then some f else none) s := by
  simp only [completed, resultState, itAfter, hx, hl, writeResult]
  cases h : physReg s.pstate.m x.d <;> cases x.setflags <;>
    simp [State.setPc, State.setIT, State.setFlags, writeReg, h]

/-! ## Branch targets -/

theorem alignT32_eq_and (a : Word) : alignT32 a = a &&& 0xFFFFFFFE#32 := by
  apply BitVec.eq_of_getLsbD_eq
  intro i hi
  simp only [alignT32, BitVec.getLsbD_append, BitVec.getLsbD_extractLsb', BitVec.getLsbD_and]
  interval_cases i <;> simp

theorem alignA32_eq_and (a : Word) : alignA32 a = a &&& 0xFFFFFFFC#32 := by
  apply BitVec.eq_of_getLsbD_eq
  intro i hi
  simp only [alignA32, BitVec.getLsbD_append, BitVec.getLsbD_extractLsb', BitVec.getLsbD_and]
  interval_cases i <;> simp

/-- Bits [1:0] of a word as a mask, read bit by bit. -/
theorem and_three (a : Word) (b1 b0 : Bool) :
    a &&& 3#32 = (BitVec.ofBool b1 ++ BitVec.ofBool b0).setWidth 32 ↔ a.getLsbD 1 = b1 ∧ a.getLsbD 0 = b0 := by
  constructor
  · intro h
    have h0 := congrArg (fun w => w.getLsbD 0) h
    have h1 := congrArg (fun w => w.getLsbD 1) h
    simp only [BitVec.getLsbD_and] at h0 h1
    clear h
    cases b1 <;> cases b0 <;> simp_all
  · rintro ⟨h1, h0⟩
    apply BitVec.eq_of_getLsbD_eq
    intro i hi
    simp only [BitVec.getLsbD_and]
    cases b1 <;> cases b0 <;> interval_cases i <;> simp_all

/-- SUB A1 with Rd = PC is the interworking branch to the difference (R72, R91). -/
theorem exec_subA1_pc (cond : BitVec 4) (rn : RegNum) (imm12 : BitVec 12) (s : State)
    (hc : conditionHolds cond s.pstate.flags = true) :
    exec (.subA1 cond rn regPC imm12) s = bxWritePC (readReg true rn s - a32ExpandImm imm12) s := by
  rw [exec_passed (.subA1 cond rn regPC imm12) s rfl hc]
  simp only [executePassed, addWithCarry_sub, aluWritePC, decodedOf, decodedA1, Decoded.isA32, Option.isSome]
  rfl

/-! ## SUBS with destination PC (R100 to R104) -/

/-- A well-formed instruction with destination PC that sets flags is a SUBS with destination PC. -/
theorem isSubsPc_of_dest (i : Instr) (it : BitVec 8) (hw : i.wf = true) (hd : destOf i = regPC)
    (hf : setsFlags it i = true) : isSubsPc i = true := by
  have low : ∀ r : BitVec 3, r.setWidth 4 ≠ regPC := by decide
  cases i with
  | subA1 cond rn rd imm12 => cases hf
  | subsA1 cond rn rd imm12 => simpa [isSubsPc, destOf] using hd
  | subT1 imm3 rn rd => exact absurd hd (low rd)
  | subT2 rdn imm8 => exact absurd hd (low rdn)
  | subT3 i rn imm3 rd imm8 => cases hf
  | subsT3 i rn imm3 rd imm8 =>
    simp only [destOf] at hd
    simp [Instr.wf, hd] at hw
  | subwT4 i rn imm3 rd imm8 => cases hf
  | subsPcLrT5 rn imm8 => rfl

/-- A SUBS with destination PC whose condition passed is ALUExceptionReturn of the difference. -/
theorem exec_subsPc (i : Instr) (s : State) (hp : isSubsPc i = true) (hi : itPlaceOk s.pstate.it i = true)
    (hc : conditionPassed (condField i) s = true) :
    exec i s = aluExceptionReturn (decodedOf s i) (operandOf s i - immOf i) s := by
  have hd : destOf i = regPC := by cases i <;> simp_all [isSubsPc, destOf]
  have hs : setsFlags s.pstate.it i = true := by cases i <;> simp_all [isSubsPc, setsFlags]
  rw [exec_passed i s hi hc]
  simp only [executePassed, decodedOf_d, hd, if_true, decodedOf_setflags, hs, addWithCarry_sub, decodedOf_isA32,
    decodedOf_imm32, readReg_decodedOf]

/-- In a mode with an SPSR, Hyp apart, it is the exception return from that SPSR. -/
theorem exec_subsPc_return (i : Instr) (s : State) (b : SpsrBank) (hp : isSubsPc i = true)
    (hi : itPlaceOk s.pstate.it i = true) (hc : conditionPassed (condField i) s = true)
    (hm : s.pstate.m ≠ .hyp) (hb : s.pstate.m.spsrBank = some b) :
    exec i s = exceptionReturn (operandOf s i - immOf i) (s.spsr.get b) s := by
  rw [exec_subsPc i s hp hi hc]
  simp [aluExceptionReturn, hm, hb]

/-- A legal return names an implemented mode (R104). -/
theorem legalReturn_mode (s : State) (w : Word) (h : legalReturn s w = true) :
    ∃ m, Mode.ofBits (w.extractLsb' 0 5) = some m ∧ m.implemented s.par = true := by
  unfold legalReturn at h
  split at h
  · cases h
  · rename_i m hm
    simp only [Bool.and_eq_true] at h
    exact ⟨m, hm, h.1.1.1.1⟩

/-- The four cases of RestoredIT with IL = 0 (R103). -/
theorem restoredIT_cases (itd t : Bool) (it : BitVec 8) :
    (itReserved it = true → restoredIT itd t it = 0#8) ∧
    (t = false → restoredIT itd t it = 0#8) ∧
    (itd = true → it.extractLsb' 0 3 ≠ 0#3 → restoredIT itd t it = 0#8) ∧
    (itReserved it = false → t = true → (itd = false ∨ it.extractLsb' 0 3 = 0#3) → restoredIT itd t it = it) := by
  unfold restoredIT
  refine ⟨?_, ?_, ?_, ?_⟩
  · intro h
    simp [h]
  · rintro rfl
    by_cases h : it = 0#8 <;> simp [h]
  · intro h1 h2
    simp [h1, h2]
  · rintro h1 rfl h2
    rcases h2 with h2 | h2 <;> simp [h1, h2]

/-- What the state an exception return leaves looks like, legal or not (R102, R103). -/
theorem returnState_leaves (s : State) (legal : Bool) (a spsr : Word) :
    ReturnLeaves s (returnState legal a spsr s) a spsr where
  flags := rfl
  q := rfl
  ge := rfl
  e := rfl
  a := rfl
  i := rfl
  f := rfl
  dit := rfl
  pan := rfl
  ss h := by simp [returnState, setPstateFromPSR, h]
  tLegal h := by
    simp only [returnState, setPstateFromPSR] at h ⊢
    rw [h]
    rfl
  tIllegal h := by
    simp only [returnState, setPstateFromPSR] at h ⊢
    rw [h]
    cases (Config.freeValue s.draws).getLsbD 0 <;> simp
  itZeroed h hr := by
    simp only [returnState, setPstateFromPSR] at h ⊢
    rw [h]
    exact (restoredIT_cases _ _ _).1 hr
  itA32 h hr := by
    simp only [returnState, setPstateFromPSR] at h hr ⊢
    rw [h] at hr ⊢
    exact (restoredIT_cases _ _ _).2.1 hr
  itRestricted h hr h2 := by
    simp only [returnState, setPstateFromPSR] at h hr ⊢
    rw [h]
    exact (restoredIT_cases _ _ _).2.2.1 hr h2
  itKept h hr h2 h3 := by
    simp only [returnState, setPstateFromPSR] at h h2 h3 ⊢
    rw [h] at h2 ⊢
    exact (restoredIT_cases _ _ _).2.2.2 hr h2 h3
  itIllegal h := by
    simp only [returnState, setPstateFromPSR] at h ⊢
    rw [h]
    cases (Config.freeValue s.draws).getLsbD 1 <;> simp
  pcT32 h h2 := by
    simp only [returnState] at h h2 ⊢
    simp [returnPc, h, h2, alignT32_eq_and]
  pcA32 h h2 := by
    simp only [returnState] at h h2 ⊢
    simp [returnPc, h, h2, alignA32_eq_and]
  pcIllegal h := by
    simp only [returnState] at h ⊢
    simp only [returnPc, h, if_true, ← alignA32_eq_and]
    generalize Config.freeValue s.draws = v
    simp only [alignA32]
    congr 1
    apply BitVec.eq_of_getLsbD_eq
    intro i hi
    simp only [BitVec.getLsbD_extractLsb', hi, decide_true, Bool.true_and]
    rw [BitVec.getLsbD_append]
    simp [hi, show ¬(2 + i < 2) by omega]
  monitor := rfl
  event := rfl
  regs := rfl
  spsrs := rfl
  elrHyp := rfl
  mem := rfl
  sys := rfl
  par := rfl

end Sys2Proof.Machine
end

