-- ==== Sys2Proof/Laws/PerInstr.lean ====
section
/-! SUPPORT. Statements made instruction by instruction. EncodeLength: the encoder writes as many bytes as the
instruction's encoding has (R50). -/

namespace Sys2Proof.Laws.EncodeLength

/-- The encoder's bytes number the instruction's length. -/
def Statement (i : Sys2Proof.Instr) : Prop := (Sys2Proof.encode i).length = i.length

theorem subA1 (cond : BitVec 4) (rn rd : Sys2Proof.RegNum) (imm12 : BitVec 12) :
    Statement (.subA1 cond rn rd imm12) := rfl
theorem subsA1 (cond : BitVec 4) (rn rd : Sys2Proof.RegNum) (imm12 : BitVec 12) :
    Statement (.subsA1 cond rn rd imm12) := rfl
theorem subT1 (imm3 rn rd : BitVec 3) : Statement (.subT1 imm3 rn rd) := rfl
theorem subT2 (rdn : BitVec 3) (imm8 : BitVec 8) : Statement (.subT2 rdn imm8) := rfl
theorem subT3 (i : BitVec 1) (rn : Sys2Proof.RegNum) (imm3 : BitVec 3) (rd : Sys2Proof.RegNum) (imm8 : BitVec 8) :
    Statement (.subT3 i rn imm3 rd imm8) := rfl
theorem subsT3 (i : BitVec 1) (rn : Sys2Proof.RegNum) (imm3 : BitVec 3) (rd : Sys2Proof.RegNum) (imm8 : BitVec 8) :
    Statement (.subsT3 i rn imm3 rd imm8) := rfl
theorem subwT4 (i : BitVec 1) (rn : Sys2Proof.RegNum) (imm3 : BitVec 3) (rd : Sys2Proof.RegNum) (imm8 : BitVec 8) :
    Statement (.subwT4 i rn imm3 rd imm8) := rfl
theorem subsPcLrT5 (rn : Sys2Proof.RegNum) (imm8 : BitVec 8) : Statement (.subsPcLrT5 rn imm8) := rfl

end Sys2Proof.Laws.EncodeLength
end

