-- ==== Sys2Proof/Tests/Slice0.lean ====
section
/-! SUPPORT. Tests of single steps, their expected values from spec/95_test_vectors.md (V1 to V48, X1 to X23) or worked
from the spec's layouts by hand, and a witness for the hypotheses of every statement of
Certificates/Slice0/Obligations.lean, clause by clause. -/

namespace Sys2Proof.Tests

open Sys2Proof.Machine

/-! ## A small state -/

/-- Reset, at an address, in an instruction set and a mode, with flags and IT state. -/
def at_ (pc : Word) (t32 : Bool) (m : Mode) (f : Nzcv) (it : BitVec 8) : State :=
  { State.reset with pc := pc, pstate := { Pstate.reset with t := t32, m := m, flags := f, it := it } }

/-- One physical register set. -/
def reg (s : State) (p : PhysReg) (v : Word) : State := { s with regs := s.regs.set p v }

/-- Every SPSR set. -/
def spsrs (s : State) (v : Word) : State := { s with spsr := ⟨v, v, v, v, v, v, v⟩ }

/-- Program text at an address. -/
def text (s : State) (a : Nat) (bytes : List Byte) : State := { s with mem := s.mem.writeBytes a bytes }

/-- Exceptions entered. -/
def entering (s : State) : State := { s with par := { s.par with exceptions := .entered } }

/-- PSTATE.IL set. -/
def illegal (s : State) : State := { s with pstate := { s.pstate with il := true } }

/-- Flags written NZCV as the vectors write them. -/
def nzcv (n z c v : Nat) : Nzcv := ⟨n == 1, z == 1, c == 1, v == 1⟩

/-- Supervisor mode, A32, at 0x8000. -/
def a32 : State := at_ 0x8000#32 false .svc (nzcv 0 0 0 0) 0#8

/-- Supervisor mode, T32, at 0x8000, outside an IT block. -/
def t32 : State := at_ 0x8000#32 true .svc (nzcv 0 0 0 0) 0#8

/-- What a next state shows of one low register, the flags, the PC and the IT state. -/
def shows (n : Fin 8) (o : Host.Outcome State Fault Refusal) : Option (Word × Nzcv × Word × BitVec 8) :=
  (nextOf o).map fun t => (t.regs.get (.low n), t.pstate.flags, t.pc, t.pstate.it)

theorem exists_next {o : Host.Outcome State Fault Refusal} (h : (nextOf o).isSome = true) : ∃ t, o = .next t := by
  cases o with
  | next t => exact ⟨t, rfl⟩
  | fault r => cases h
  | refused r => cases h

/-! ## WellFormed refuses an ill-formed term, check by check -/

theorem test_wf_a1_cond : Instr.wf (.subA1 15#4 1#4 0#4 1#12) = false := by decide
theorem test_wf_a1_rn_pc : Instr.wf (.subA1 14#4 15#4 0#4 1#12) = false := by decide
theorem test_wf_a1_rn_sp : Instr.wf (.subA1 14#4 13#4 0#4 1#12) = false := by decide
theorem test_wf_a1s_cond : Instr.wf (.subsA1 15#4 1#4 0#4 1#12) = false := by decide
theorem test_wf_a1s_rn_sp : Instr.wf (.subsA1 14#4 13#4 0#4 1#12) = false := by decide
theorem test_wf_t3_rn_sp : Instr.wf (.subT3 0#1 13#4 0#3 0#4 1#8) = false := by decide
theorem test_wf_t3_rd_pc : Instr.wf (.subT3 0#1 1#4 0#3 15#4 1#8) = false := by decide
theorem test_wf_t3_rn_pc : Instr.wf (.subT3 0#1 15#4 0#3 0#4 1#8) = false := by decide
theorem test_wf_t3_zero_byte : Instr.wf (.subT3 0#1 1#4 3#3 0#4 0#8) = false := by decide
theorem test_wf_t3s_rd_pc : Instr.wf (.subsT3 0#1 1#4 0#3 15#4 1#8) = false := by decide
theorem test_wf_t3s_rn_sp : Instr.wf (.subsT3 0#1 13#4 0#3 0#4 1#8) = false := by decide
theorem test_wf_t3s_rn_pc : Instr.wf (.subsT3 0#1 15#4 0#3 0#4 1#8) = false := by decide
theorem test_wf_t3s_zero_byte : Instr.wf (.subsT3 0#1 1#4 1#3 0#4 0#8) = false := by decide
theorem test_wf_t4_rn_pc : Instr.wf (.subwT4 0#1 15#4 0#3 0#4 1#8) = false := by decide
theorem test_wf_t4_rn_sp : Instr.wf (.subwT4 0#1 13#4 0#3 0#4 1#8) = false := by decide
theorem test_wf_t4_rd_pc : Instr.wf (.subwT4 0#1 1#4 0#3 15#4 1#8) = false := by decide
theorem test_wf_t5_rn : Instr.wf (.subsPcLrT5 0#4 4#8) = false := by decide
theorem test_wf_t5_eret : Instr.wf (.subsPcLrT5 14#4 0#8) = false := by decide
theorem test_wf_accepts : Instr.wf (.subsA1 14#4 15#4 15#4 0#12) = true ∧ Instr.wf (.subT1 0#3 7#3 0#3) = true ∧
    Instr.wf (.subT2 7#3 0#8) = true ∧ Instr.wf (.subT3 0#1 1#4 0#3 0#4 0#8) = true ∧
    Instr.wf (.subwT4 0#1 1#4 1#3 13#4 0#8) = true ∧ Instr.wf (.subsPcLrT5 14#4 1#8) = true := by decide

/-! ## Words written out from the spec's encodings, as bytes in memory (R42, R50) -/

/-- V31: A1 `E2410001`, bytes `01 00 41 E2`. -/
theorem test_decode_subA1 : decode false [0x01#8, 0x00#8, 0x41#8, 0xE2#8] = .ok (.subA1 14#4 1#4 0#4 1#12, []) := by
  decide
/-- V33: A1 `E25F1004`: S = 1 with Rn = PC is SUBS. -/
theorem test_decode_subsA1 : decode false [0x04#8, 0x10#8, 0x5F#8, 0xE2#8, 0xAA#8] =
    .ok (.subsA1 14#4 15#4 1#4 4#12, [0xAA#8]) := by decide
/-- V35: T1 `1E48`, bytes `48 1E`. -/
theorem test_decode_subT1 : decode true [0x48#8, 0x1E#8] = .ok (.subT1 1#3 1#3 0#3, []) := by decide
/-- P2: T2 `3805`. -/
theorem test_decode_subT2 : decode true [0x05#8, 0x38#8] = .ok (.subT2 0#3 5#8, []) := by decide
/-- V40: T3 `F1A0 0D10`, bytes `A0 F1 10 0D`. -/
theorem test_decode_subT3 : decode true [0xA0#8, 0xF1#8, 0x10#8, 0x0D#8] =
    .ok (.subT3 0#1 0#4 0#3 13#4 0x10#8, []) := by decide
/-- P2: T3 `F1B2 4300`. -/
theorem test_decode_subsT3 : decode true [0xB2#8, 0xF1#8, 0x00#8, 0x43#8] =
    .ok (.subsT3 0#1 2#4 4#3 3#4 0#8, []) := by decide
/-- S1: T4 `F2A1 0001`. -/
theorem test_decode_subwT4 : decode true [0xA1#8, 0xF2#8, 0x01#8, 0x00#8] =
    .ok (.subwT4 0#1 1#4 0#3 0#4 1#8, []) := by decide
/-- S2: T5 `F3DE 8F04`. -/
theorem test_decode_subsPcLrT5 : decode true [0xDE#8, 0xF3#8, 0x04#8, 0x8F#8] = .ok (.subsPcLrT5 14#4 4#8, []) := by
  decide
/-- X1 to X4, X7, X9, X10, X12: the SEE exits. -/
theorem test_decode_see :
    decodeA32 0xE24F0004#32 = .error (.notThisInstruction .adr) ∧
    decodeA32 0xE25D0004#32 = .error (.notThisInstruction .subSpMinusImmediate) ∧
    decodeA32 0xF2410001#32 = .error (.notThisInstruction .noMatch) ∧
    decodeT32 0xF1B10F01#32 = .error (.notThisInstruction .cmpImmediate) ∧
    decodeT32 0xF1AD0001#32 = .error (.notThisInstruction .subSpMinusImmediate) ∧
    decodeT32 0xF2AF0001#32 = .error (.notThisInstruction .adr) ∧
    decodeT32 0xF2AD0001#32 = .error (.notThisInstruction .subSpMinusImmediate) ∧
    decodeT32 0xF3DE8F00#32 = .error (.notThisInstruction .eret) := by decide
/-- X5, X6, X8, X11, X13, X14: the other refusals of the decoder. -/
theorem test_decode_refuses :
    decodeT32 0xF1A10F01#32 = .error (.unpredictable .t3Rd15Sub) ∧
    decodeT32 0xF1BF0001#32 = .error (.unpredictable .t3Rn15) ∧
    decodeT32 0xF1A11000#32 = .error .t32ExpandImmZeroByte ∧
    decodeT32 0xF2A10F01#32 = .error (.unpredictable .t4Rd15) ∧
    decodeT32 0xF3D08F00#32 = .error (.unpredictable .t5RnNotLR) ∧
    decodeT32 0xF3DE8704#32 = .error .shouldBeBits ∧ decodeT32 0xF3DEAF04#32 = .error .shouldBeBits := by decide
/-- X21: neighbours of the encodings. -/
theorem test_decode_no_match :
    decodeA32 0xE2810001#32 = .error (.notThisInstruction .noMatch) ∧
    decodeA32 0xE2610001#32 = .error (.notThisInstruction .noMatch) ∧
    decodeT16 0x1C48#16 = .error (.notThisInstruction .noMatch) ∧
    decodeT16 0x3001#16 = .error (.notThisInstruction .noMatch) ∧
    decodeT32 0xF1A18001#32 = .error (.notThisInstruction .noMatch) ∧
    decodeT32 0xF1010001#32 = .error (.notThisInstruction .noMatch) := by decide
/-- The table's numbering of the same words. -/
theorem test_table_words :
    decodeTableWord 32 0xE2410001 = some (.subA1 14#4 1#4 0#4 1#12) ∧
    decodeTableWord 16 0x1E48 = some (.subT1 1#3 1#3 0#3) ∧
    decodeTableWord 32 0xF3DE8F04 = some (.subsPcLrT5 14#4 4#8) ∧ decodeTableWord 32 0xE24F0004 = none := by decide

/-! ## The immediates (V3, V6, V7, V10 to V12, V14, V16, V17) -/

theorem test_a32ExpandImm : a32ExpandImm 0x102#12 = 0x80000000#32 ∧ a32ExpandImm 0x2FF#12 = 0xF000000F#32 ∧
    a32ExpandImm 0xFFF#12 = 0x000003FC#32 := by decide
theorem test_t32ExpandImm : t32ExpandImm 0x1AB#12 = 0x00AB00AB#32 ∧ t32ExpandImm 0x2AB#12 = 0xAB00AB00#32 ∧
    t32ExpandImm 0x3AB#12 = 0xABABABAB#32 ∧ t32ExpandImm 0x400#12 = 0x80000000#32 ∧
    t32ExpandImm 0x4FF#12 = 0x7F800000#32 ∧ t32ExpandImm 0xFFF#12 = 0x000001FE#32 := by decide

/-! ## One step -/

/-- V31. -/
theorem test_subA1 : shows 0 (step ((reg { a32 with pstate := { a32.pstate with flags := nzcv 1 1 1 1 } }
    (.low 1) 5#32).withFetchWord 32 0xE2410001)) = some (4#32, nzcv 1 1 1 1, 0x8004#32, 0#8) := by decide
/-- V43 (a): the interworking branch. -/
theorem test_subA1_pc : (nextOf (step ((reg a32 (.low 1) 0x9001#32).withFetchWord 32 0xE241F000))).map
    (fun t => (t.pc, t.pstate.t, t.pstate.flags)) = some (0x9000#32, true, nzcv 0 0 0 0) := by decide
/-- V33. -/
theorem test_subsA1 : shows 1 (step (a32.withFetchWord 32 0xE25F1004)) =
    some (0x8004#32, nzcv 0 0 1 0, 0x8004#32, 0#8) := by decide
/-- V42: the return within Supervisor mode. -/
theorem test_subsA1_pc : (nextOf (step ((spsrs (reg a32 (.lr .svc) 0x10007#32) 0x200001D3#32).withFetchWord 32
    0xE25EF004))).map (fun t => (t.pc, t.pstate.m, t.pstate.flags, t.pstate.i, t.pstate.t, t.regs.get (.lr .svc))) =
    some (0x10000#32, Mode.svc, nzcv 0 0 1 0, true, false, 0x10007#32) := by decide
/-- V35. -/
theorem test_subT1 : shows 0 (step ((reg t32 (.low 1) 0x80000000#32).withFetchWord 16 0x1E48)) =
    some (0x7FFFFFFF#32, nzcv 0 0 1 1, 0x8002#32, 0#8) := by decide
/-- V36: the same halfword inside an IT block. -/
theorem test_subT1_in_it : shows 0 (step ((reg (at_ 0x8000#32 true .svc (nzcv 0 1 0 0) 0b00001000#8) (.low 1)
    5#32).withFetchWord 16 0x1E48)) = some (4#32, nzcv 0 1 0 0, 0x8002#32, 0#8) := by decide
/-- V37. -/
theorem test_subT2 : shows 7 (step (t32.withFetchWord 16 0x3FFF)) =
    some (0xFFFFFF01#32, nzcv 1 0 0 0, 0x8002#32, 0#8) := by decide
/-- P3, step 2: NE fails inside the block. -/
theorem test_subT2_failed : shows 2 (step ((reg (at_ 0x8000#32 true .svc (nzcv 0 1 0 0) 0b00011000#8) (.low 2)
    1#32).withFetchWord 16 0x3A01)) = some (1#32, nzcv 0 1 0 0, 0x8002#32, 0#8) := by decide
/-- V40: SP of the current mode, flags unchanged. -/
theorem test_subT3 : (nextOf (step ((reg t32 (.low 0) 0x20001000#32).withFetchWord 32 0xF1A00D10))).map
    (fun t => (t.regs.get (.sp .svc), t.regs.get (.sp .usr), t.pstate.flags, t.pc)) =
    some (0x20000FF0#32, 0#32, nzcv 0 0 0 0, 0x8004#32) := by decide
/-- V38, R9 being `R9_usr` in Supervisor mode. -/
theorem test_subsT3 : (nextOf (step ((reg t32 (.mid false 1) 0x00010000#32).withFetchWord 32 0xF1B918AB))).map
    (fun t => (t.regs.get (.mid false 0), t.pstate.flags)) = some (0xFF55FF55#32, nzcv 1 0 0 0) := by decide
/-- V46: flags are written inside the IT block. -/
theorem test_subsT3_in_it : shows 0 (step ((reg (at_ 0x8000#32 true .svc (nzcv 0 1 0 0) 0b00001000#8) (.low 0)
    1#32).withFetchWord 32 0xF1B00001)) = some (0#32, nzcv 0 1 1 0, 0x8004#32, 0#8) := by decide
/-- V39. -/
theorem test_subwT4 : shows 4 (step ((reg (at_ 0x8000#32 true .svc (nzcv 0 1 1 0) 0#8) (.low 4) 100#32).withFetchWord 32
    0xF6A474FF)) = some (0xFFFFF065#32, nzcv 0 1 1 0, 0x8004#32, 0#8) := by decide
/-- V41: from IRQ mode in T32 to User mode in A32. -/
theorem test_subsPcLrT5 : (nextOf (step ((spsrs (reg (at_ 0xF10#32 true .irq (nzcv 1 0 0 0) 0#8) (.lr .irq) 0x8124#32)
    0x60000010#32).withFetchWord 32 0xF3DE8F04))).map
    (fun t => (t.pc, t.pstate.m, t.pstate.flags, t.pstate.i, t.pstate.t, t.pstate.il)) =
    some (0x8120#32, Mode.usr, nzcv 0 1 1 0, false, false, false) := by decide
/-- V47: last in an IT block, from Abort to Supervisor mode, no IT advance. -/
theorem test_subsPcLrT5_in_it : (nextOf (step ((spsrs (reg (at_ 0x8000#32 true .abt (nzcv 0 1 0 0) 0b00001000#8)
    (.lr .abt) 0x4010#32) 0x1F3#32).withFetchWord 32 0xF3DE8F08))).map
    (fun t => (t.pc, t.pstate.m, t.pstate.flags, t.pstate.t, t.pstate.it)) =
    some (0x4008#32, Mode.svc, nzcv 0 0 0 0, true, 0#8) := by decide

/-! ## The stops of part 6 -/

/-- X15: not last in the IT block. -/
theorem test_t5_not_last : refusalOf (step ((at_ 0x8000#32 true .irq (nzcv 0 0 0 0) 0b00000100#8).withFetchWord 32
    0xF3DE8F04)) = some (.unpredictable .t5NotLastInIT) := by decide
/-- X16: Hyp mode. -/
theorem test_subsPc_hyp : faultOf (step ((at_ 0x8000#32 false .hyp (nzcv 0 0 0 0) 0#8).withFetchWord 32 0xE25EF004)) =
    some (.undefinedInstruction 0x8000#32 0xE25EF004#32) := by decide
/-- X17: System mode. -/
theorem test_subsPc_system : refusalOf (step ((at_ 0x8000#32 true .sys (nzcv 0 0 0 0) 0#8).withFetchWord 32
    0xF3DE8F04)) = some (.unpredictable .excReturnUserSys) := by decide
/-- X18: the PC would wrap. -/
theorem test_pc_wrap : refusalOf (step ((at_ 0xFFFFFFFC#32 false .svc (nzcv 0 0 0 0) 0#8).withFetchWord 32
    0xE2410001)) = some .pcWrap := by decide
/-- X19: SPSR_irq = 0. -/
theorem test_illegal_return : faultOf (step ((at_ 0x8000#32 false .irq (nzcv 0 0 0 0) 0#8).withFetchWord 32
    0xE25EF004)) = some (.illegalReturn 0x8000#32) := by decide
/-- X20: a reserved IT state. -/
theorem test_it_reserved : refusalOf (step ((at_ 0x8000#32 true .svc (nzcv 0 0 0 0) 0b00010000#8).withFetchWord 16
    0x1E48)) = some (.unpredictable .itReserved) := by decide
/-- X22 and X23: no text; a misaligned A32 PC. -/
theorem test_fetch_faults : faultOf (step State.reset) = some (.fetchAbort 0#32) ∧
    faultOf (step { State.reset with pc := 2#32 }) = some (.pcAlignment 2#32) := by decide
/-- The first instruction after reset: SUBS R7, #255 on the zeros of log 4 gives V37's result. -/
theorem test_first_step : shows 7 (step (State.reset.withFetchWord 16 0x3FFF)) =
    some (0xFFFFFF01#32, nzcv 1 0 0 0, 2#32, 0#8) := by decide
/-- R107 with the parameter that enters exceptions: System mode, UNDEFINED, to the vector base plus 4. -/
theorem test_undefined_entry : (nextOf (exec (.subsA1 14#4 14#4 15#4 4#12) { entering (at_ 0x8000#32 false .sys
    (nzcv 0 1 0 0) 0#8) with par := { Params.reset with exceptions := .entered, aluExcReturnUserSys := .undefined } })).map
    (fun t => (t.pc, t.pstate.m, t.regs.get (.lr .und), t.spsr.und)) =
    some (4#32, Mode.und, 0x8004#32, 0x400001DF#32) := by decide

/-! ## Witnesses: states and operands that meet the hypotheses of the statements -/

theorem witness_EncodeThenDecode : Instr.wf (.subT3 1#1 11#4 4#3 10#4 0x7F#8) = true := by decide

theorem witness_DecodeThenEncode : decode true [0xA0#8, 0xF1#8, 0x10#8, 0x0D#8, 0x48#8] =
    .ok (.subT3 0#1 0#4 0#3 13#4 0x10#8, [0x48#8]) := by decide

/-- One word for each clause, at a neighbour of the pattern or at the excluded register number. -/
theorem witness_A32WordsDecodeByMask :
    ¬(0xE2810001#32 &&& 0x0FE00000#32 = 0x02400000#32) ∧
    (0xF2410001#32).extractLsb' 28 4 = 0b1111#4 ∧
    (0xE25D0004#32 &&& 0x0FE00000#32 = 0x02400000#32 ∧ (0xE25D0004#32).extractLsb' 28 4 ≠ 0b1111#4 ∧
      (0xE25D0004#32).extractLsb' 16 4 = 0b1101#4) ∧
    (0xE24F0004#32 &&& 0x0FE00000#32 = 0x02400000#32 ∧ (0xE24F0004#32).extractLsb' 28 4 ≠ 0b1111#4 ∧
      (0xE24F0004#32).getLsbD 20 = false ∧ (0xE24F0004#32).extractLsb' 16 4 = 0b1111#4) ∧
    (0xE24E0004#32 &&& 0x0FE00000#32 = 0x02400000#32 ∧ (0xE24E0004#32).extractLsb' 28 4 ≠ 0b1111#4 ∧
      (0xE24E0004#32).getLsbD 20 = false ∧ (0xE24E0004#32).extractLsb' 16 4 ≠ 0b1101#4 ∧
      (0xE24E0004#32).extractLsb' 16 4 ≠ 0b1111#4) ∧
    (0xE25F0004#32 &&& 0x0FE00000#32 = 0x02400000#32 ∧ (0xE25F0004#32).extractLsb' 28 4 ≠ 0b1111#4 ∧
      (0xE25F0004#32).getLsbD 20 = true ∧ (0xE25F0004#32).extractLsb' 16 4 ≠ 0b1101#4) := by decide

theorem witness_T16HalfwordsDecodeByMask :
    (0x1FFF#16 &&& 0xFE00#16 = 0x1E00#16) ∧ (0x3FFF#16 &&& 0xF800#16 = 0x3800#16) ∧
    ¬(0x1C48#16 &&& 0xFE00#16 = 0x1E00#16) ∧ ¬(0x1C48#16 &&& 0xF800#16 = 0x3800#16) := by decide

/-- One word for each clause: X4, X7, X8, X5, X6 and the nearest accepted word of X5. -/
theorem witness_T3WordsDecodeByMask :
    (0xF1B10F01#32 &&& 0xFBE08000#32 = 0xF1A00000#32 ∧ (0xF1B10F01#32).extractLsb' 8 4 = 0b1111#4 ∧
      (0xF1B10F01#32).getLsbD 20 = true) ∧
    (0xF1AD0001#32 &&& 0xFBE08000#32 = 0xF1A00000#32 ∧ (0xF1AD0001#32).extractLsb' 16 4 = 0b1101#4 ∧
      ((0xF1AD0001#32).extractLsb' 8 4 = 0b1111#4 → (0xF1AD0001#32).getLsbD 20 = false)) ∧
    (0xF1A11000#32 &&& 0xFBE08000#32 = 0xF1A00000#32 ∧ (0xF1A11000#32).extractLsb' 16 4 ≠ 0b1101#4 ∧
      (0xF1A11000#32 &&& 0x04004000#32 = 0#32 ∧ 0xF1A11000#32 &&& 0x00003000#32 ≠ 0#32 ∧
        0xF1A11000#32 &&& 0x000000FF#32 = 0#32)) ∧
    (0xF1A10F01#32 &&& 0xFBE08000#32 = 0xF1A00000#32 ∧ (0xF1A10F01#32).extractLsb' 16 4 ≠ 0b1101#4 ∧
      ¬(0xF1A10F01#32 &&& 0x000000FF#32 = 0#32) ∧ (0xF1A10F01#32).extractLsb' 8 4 = 0b1111#4 ∧
      (0xF1A10F01#32).getLsbD 20 = false) ∧
    (0xF1BF0001#32 &&& 0xFBE08000#32 = 0xF1A00000#32 ∧ ¬(0xF1BF0001#32 &&& 0x000000FF#32 = 0#32) ∧
      (0xF1BF0001#32).extractLsb' 8 4 ≠ 0b1111#4 ∧ (0xF1BF0001#32).extractLsb' 16 4 = 0b1111#4) ∧
    (0xF1A10E01#32 &&& 0xFBE08000#32 = 0xF1A00000#32 ∧ ¬(0xF1A10E01#32 &&& 0x000000FF#32 = 0#32) ∧
      (0xF1A10E01#32).extractLsb' 8 4 ≠ 0b1111#4 ∧ (0xF1A10E01#32).extractLsb' 16 4 ≠ 0b1101#4 ∧
      (0xF1A10E01#32).extractLsb' 16 4 ≠ 0b1111#4) := by decide

/-- One word for each clause: X9, X10, X11, S1 for T4; X12, X14, X13, S2 for T5; X21 for none. -/
theorem witness_T4T5WordsDecodeByMask :
    (0xF2AF0001#32 &&& 0xFBF08000#32 = 0xF2A00000#32 ∧ (0xF2AF0001#32).extractLsb' 16 4 = 0b1111#4) ∧
    (0xF2AD0001#32 &&& 0xFBF08000#32 = 0xF2A00000#32 ∧ (0xF2AD0001#32).extractLsb' 16 4 = 0b1101#4) ∧
    (0xF2A10F01#32 &&& 0xFBF08000#32 = 0xF2A00000#32 ∧ (0xF2A10F01#32).extractLsb' 16 4 = 1#4 ∧
      (0xF2A10F01#32).extractLsb' 8 4 = 0b1111#4) ∧
    (0xF2A10001#32 &&& 0xFBF08000#32 = 0xF2A00000#32 ∧ (0xF2A10001#32).extractLsb' 16 4 = 1#4 ∧
      (0xF2A10001#32).extractLsb' 8 4 ≠ 0b1111#4) ∧
    (0xF3DE8F00#32 &&& 0xFFF0D000#32 = 0xF3D08000#32 ∧ (0xF3DE8F00#32).extractLsb' 16 4 = 0b1110#4 ∧
      (0xF3DE8F00#32).extractLsb' 0 8 = 0#8) ∧
    (0xF3DE8704#32 &&& 0xFFF0D000#32 = 0xF3D08000#32 ∧ (0xF3DE8704#32).extractLsb' 0 8 ≠ 0#8 ∧
      0xF3DE8704#32 &&& 0x00002F00#32 ≠ 0x00000F00#32) ∧
    (0xF3D08F00#32 &&& 0xFFF0D000#32 = 0xF3D08000#32 ∧ (0xF3D08F00#32).extractLsb' 16 4 ≠ 0b1110#4 ∧
      0xF3D08F00#32 &&& 0x00002F00#32 = 0x00000F00#32) ∧
    (0xF3DE8F01#32 &&& 0xFFF0D000#32 = 0xF3D08000#32 ∧ (0xF3DE8F01#32).extractLsb' 16 4 = 0b1110#4 ∧
      (0xF3DE8F01#32).extractLsb' 0 8 ≠ 0#8 ∧ 0xF3DE8F01#32 &&& 0x00002F00#32 = 0x00000F00#32) ∧
    (¬(0xF1A18001#32 &&& 0xFBE08000#32 = 0xF1A00000#32) ∧ ¬(0xF1A18001#32 &&& 0xFBF08000#32 = 0xF2A00000#32) ∧
      ¬(0xF1A18001#32 &&& 0xFFF0D000#32 = 0xF3D08000#32)) := by decide

/-- The remark on immediates below 2^31: V22 overflows. -/
theorem witness_SubtractionClosedForm : (1#32).toNat < 2 ^ 31 ∧
    (addWithCarry 0x80000000#32 (~~~1#32) true).2.v = true := by decide

theorem witness_RorMovesBits : 31 < 32 := by decide

theorem witness_A32ExpandImmBits : 31 < 32 := by decide

theorem witness_T32ExpandImmForms :
    (0x0FF#12).extractLsb' 8 4 = 0b0000#4 ∧ (0x1FF#12).extractLsb' 8 4 = 0b0001#4 ∧
    (0x2FF#12).extractLsb' 8 4 = 0b0010#4 ∧ (0x3FF#12).extractLsb' 8 4 = 0b0011#4 ∧
    ((0x400#12).extractLsb' 10 2 ≠ 0b00#2 ∧ 31 < 32) := by decide

theorem witness_ItAdvanceShifts : (0x08#8 &&& 0x07#8 = 0#8) ∧ (0x0C#8 &&& 0x07#8 ≠ 0#8) ∧
    lastInITBlock 0x18#8 = true := by decide

/-- X20. -/
theorem witness_ReservedItStateRefused : Instr.isA32 (.subT1 1#3 1#3 0#3) = false ∧
    (at_ 0#32 true .svc (nzcv 0 0 0 0) 0x10#8).pstate.it &&& 0xF0#8 ≠ 0#8 ∧
    (at_ 0#32 true .svc (nzcv 0 0 0 0) 0x10#8).pstate.it &&& 0x0F#8 = 0#8 := by decide

/-- X15. -/
theorem witness_SubsPcLrNotLastInItRefused :
    inITBlock (at_ 0#32 true .irq (nzcv 0 0 0 0) 0x04#8).pstate.it = true ∧
    lastInITBlock (at_ 0#32 true .irq (nzcv 0 0 0 0) 0x04#8).pstate.it = false := by decide

theorem witness_RegisterAccessors : (14#4 : RegNum) ≠ regPC ∧ PhysReg.lr .usr ≠ PhysReg.lr .svc := by decide

theorem witness_SubA1Result : (14#4 : RegNum) ≠ regPC ∧ conditionHolds 14#4 a32.pstate.flags = true ∧
    a32.pc.toNat + 4 < 2 ^ 32 := by decide

theorem witness_SubsA1Result : (0#4 : RegNum) ≠ regPC ∧ conditionHolds 1#4 a32.pstate.flags = true ∧
    (at_ 0xFFFFFFF8#32 false .usr (nzcv 0 0 0 0) 0#8).pc.toNat + 4 < 2 ^ 32 := by decide

/-- Inside an IT block whose condition holds, and outside one. -/
theorem witness_SubT1Result :
    (conditionPassed none (at_ 0xFFFFFFFC#32 true .usr (nzcv 0 1 0 0) 0x08#8) = true ∧
      (at_ 0xFFFFFFFC#32 true .usr (nzcv 0 1 0 0) 0x08#8).pc.toNat + 2 < 2 ^ 32) ∧
    (conditionPassed none t32 = true ∧ t32.pc.toNat + 2 < 2 ^ 32) := by decide

theorem witness_SubT2Result :
    (conditionPassed none (at_ 0xFFFFFFFC#32 true .usr (nzcv 0 1 0 0) 0x08#8) = true ∧
      (at_ 0xFFFFFFFC#32 true .usr (nzcv 0 1 0 0) 0x08#8).pc.toNat + 2 < 2 ^ 32) ∧
    (conditionPassed none t32 = true ∧ t32.pc.toNat + 2 < 2 ^ 32) := by decide

theorem witness_SubT3Result : (13#4 : RegNum) ≠ regPC ∧ conditionPassed none t32 = true ∧
    t32.pc.toNat + 4 < 2 ^ 32 := by decide

theorem witness_SubsT3Result : (8#4 : RegNum) ≠ regPC ∧
    conditionPassed none (at_ 0x8000#32 true .fiq (nzcv 0 1 0 0) 0x08#8) = true ∧
    (at_ 0x8000#32 true .fiq (nzcv 0 1 0 0) 0x08#8).pc.toNat + 4 < 2 ^ 32 := by decide

theorem witness_SubwT4Result : (4#4 : RegNum) ≠ regPC ∧
    conditionPassed none (at_ 0x8000#32 true .svc (nzcv 0 0 0 0) 0x18#8) = true ∧
    (at_ 0x8000#32 true .svc (nzcv 0 0 0 0) 0x18#8).pc.toNat + 4 < 2 ^ 32 := by decide

/-- V48: T5 in Hyp mode, EQ failing; and a T32 state outside an IT block. -/
theorem witness_ConditionFailedOnlyCompletes :
    let s := at_ 0x8000#32 true .hyp (nzcv 0 0 0 0) 0x08#8
    (itPlaceOk s.pstate.it (.subsPcLrT5 14#4 4#8) = true ∧
      currentCond (condField (.subsPcLrT5 14#4 4#8)) s.pstate.it = some 0#4 ∧
      conditionHolds 0#4 s.pstate.flags = false ∧ s.pc.toNat + Instr.length (.subsPcLrT5 14#4 4#8) < 2 ^ 32) ∧
    itPlaceOk 0x04#8 (.subsPcLrT5 14#4 4#8) = false ∧ t32.pstate.it = 0#8 := by decide

/-- X18 for either kind, and V44 for the branch. -/
theorem witness_SequentialWrapRefused :
    (let s := at_ 0xFFFFFFFE#32 true .svc (nzcv 0 0 0 0) 0#8
     itPlaceOk s.pstate.it (.subT1 1#3 1#3 0#3) = true ∧
      currentCond (condField (.subT1 1#3 1#3 0#3)) s.pstate.it = some 14#4 ∧
      destOf (.subT1 1#3 1#3 0#3) ≠ regPC ∧ 2 ^ 32 ≤ s.pc.toNat + Instr.length (.subT1 1#3 1#3 0#3)) ∧
    (let s := at_ 0xFFFFFFFC#32 false .svc (nzcv 0 1 0 0) 0#8
     itPlaceOk s.pstate.it (.subA1 1#4 1#4 15#4 4#12) = true ∧
      currentCond (condField (.subA1 1#4 1#4 15#4 4#12)) s.pstate.it = some 1#4 ∧
      conditionHolds 1#4 s.pstate.flags = false ∧ 2 ^ 32 ≤ s.pc.toNat + Instr.length (.subA1 1#4 1#4 15#4 4#12)) ∧
    readReg true 1#4 a32 = 0#32 := by decide

/-- V43 (a), (b), (c) with the parameter not given, clearing and leaving. -/
theorem witness_SubA1PcInterworks :
    let at1 := fun v => readReg true 1#4 (reg a32 (.low 1) v) - a32ExpandImm 0#12
    (conditionHolds 0#4 a32.pstate.flags = false ∧ a32.pc.toNat + 4 < 2 ^ 32) ∧
    conditionHolds 14#4 a32.pstate.flags = true ∧ (at1 0x9001#32).getLsbD 0 = true ∧ at1 0x9000#32 &&& 3#32 = 0#32 ∧
    (at1 0x9002#32 &&& 3#32 = 2#32 ∧ a32.par.a32ForceAlignPC = .unresolved) ∧
    Params.a32ForceAlignPC { a32.par with a32ForceAlignPC := .clears } = .clears ∧
    Params.a32ForceAlignPC { a32.par with a32ForceAlignPC := .leaves } = .leaves := by decide

/-- X16, both forms. -/
theorem witness_SubsPcInHypUndefined :
    (let s := at_ 0x8000#32 true .hyp (nzcv 0 0 0 0) 0#8
     isSubsPc (.subsPcLrT5 14#4 4#8) = true ∧ itPlaceOk s.pstate.it (.subsPcLrT5 14#4 4#8) = true ∧
      conditionPassed (condField (.subsPcLrT5 14#4 4#8)) s = true ∧ s.pstate.m = .hyp) ∧
    (let s := at_ 0x8000#32 false .hyp (nzcv 0 0 0 0) 0#8
     isSubsPc (.subsA1 14#4 14#4 15#4 4#12) = true ∧ itPlaceOk s.pstate.it (.subsA1 14#4 14#4 15#4 4#12) = true ∧
      conditionPassed (condField (.subsA1 14#4 14#4 15#4 4#12)) s = true ∧ s.pstate.m = .hyp) := by decide

/-- X17, with each value of the parameter. -/
theorem witness_SubsPcInUserSystem :
    let i : Instr := .subsA1 14#4 14#4 15#4 4#12
    let s := at_ 0x8000#32 false .usr (nzcv 0 0 0 0) 0#8
    let nop := { s with par := { s.par with aluExcReturnUserSys := .nop } }
    let und := { s with par := { s.par with aluExcReturnUserSys := .undefined } }
    (isSubsPc i = true ∧ itPlaceOk s.pstate.it i = true ∧ conditionPassed (condField i) s = true ∧ s.pstate.m = .usr) ∧
    s.par.aluExcReturnUserSys = .unresolved ∧
    (nop.par.aluExcReturnUserSys = .nop ∧ nop.pc.toNat + i.length < 2 ^ 32) ∧
    (und.par.aluExcReturnUserSys = .undefined ∧ und.par.exceptions = .terminal) ∧
    ((entering und).par.aluExcReturnUserSys = .undefined ∧ (entering und).par.exceptions = .entered ∧
      takenToUndefinedMode (entering und) = true) := by decide

/-- V42. -/
theorem witness_SubsA1PcReturns :
    let s := spsrs (reg a32 (.lr .svc) 0x10008#32) 0x200001D3#32
    conditionHolds 14#4 s.pstate.flags = true ∧ s.pstate.m ≠ .hyp ∧ s.pstate.m.spsrBank = some .svc ∧
    legalReturn s (s.spsr.get .svc) = true := by decide

/-- V47, and a return whose SPSR has IL = 1. -/
theorem witness_SubsPcLrReturns :
    (let s := spsrs (reg (at_ 0x8000#32 true .abt (nzcv 0 1 0 0) 0x08#8) (.lr .abt) 0x4010#32) 0x1F3#32
     itPlaceOk s.pstate.it (.subsPcLrT5 14#4 8#8) = true ∧ conditionPassed none s = true ∧ s.pstate.m ≠ .hyp ∧
      s.pstate.m.spsrBank = some .abt ∧ legalReturn s (s.spsr.get .abt) = true) ∧
    (let s := spsrs t32 0x00100013#32
     itPlaceOk s.pstate.it (.subsPcLrT5 14#4 8#8) = true ∧ conditionPassed none s = true ∧ s.pstate.m ≠ .hyp ∧
      s.pstate.m.spsrBank = some .svc ∧ legalReturn s (s.spsr.get .svc) = true) := by decide

/-- Non-secure state. -/
def nonsecure (s : State) : State := { s with sys := { s.sys with scrNS := true } }

/-- What the accepting clause of IllegalReturnEvents asks of a return to a mode. -/
abbrev accepts (s : State) (spsr : Word) (m : Mode) : Prop :=
  Mode.ofBits (spsr.extractLsb' 0 5) = some m ∧ m.implemented s.par = true ∧
  m.level s.par s.sys ≤ s.pstate.m.level s.par s.sys ∧ (m = .hyp → secureState s.par s.sys = false) ∧
  (m.level s.par s.sys = 1 → s.par.haveEL2 = true → s.sys.hcrTGE = false) ∧
  (s.pstate.m, spsr) ∉ s.par.illegalReturns

/-- The rejecting clauses: Secure and Non-secure states with SPSRs for each. -/
theorem witness_IllegalReturnEvents :
    let noEl2 := { a32 with par := { a32.par with haveEL2 := false } }
    let noEl3 := { a32 with par := { a32.par with haveEL3 := false } }
    let ns := { a32 with sys := { a32.sys with scrNS := true } }
    let tge := { a32 with sys := { a32.sys with scrNS := true, hcrTGE := true } }
    (0x00000000#32).getLsbD 4 = false ∧ Mode.ofBits ((0x00000014#32).extractLsb' 0 5) = none ∧
    (Mode.ofBits ((0x0000001A#32).extractLsb' 0 5) = some .hyp ∧ noEl2.par.haveEL2 = false) ∧
    (Mode.ofBits ((0x00000016#32).extractLsb' 0 5) = some .mon ∧ noEl3.par.haveEL3 = false) ∧
    (ns.pstate.m.level ns.par ns.sys < Mode.level ns.par ns.sys .hyp) ∧
    (secureState a32.par a32.sys = true) ∧
    ((a32.pstate.m, 0x00000010#32) ∈ Params.illegalReturns { a32.par with
      illegalReturns := [(.svc, 0x00000010#32)] }) ∧
    (Mode.level tge.par tge.sys .svc = 1 ∧ tge.par.haveEL2 = true ∧ tge.sys.hcrTGE = true) := by decide

/-- The accepting clause: V41, V47, IRQ to System, Monitor to Non-secure Supervisor and to Hyp, and Supervisor to User
while HCR.TGE is 1. -/
theorem witness_IllegalReturnEvents_accepts :
    accepts (at_ 0xF10#32 true .irq (nzcv 0 0 0 0) 0#8) 0x60000010#32 .usr ∧
    accepts (at_ 0x8000#32 true .abt (nzcv 0 0 0 0) 0#8) 0x000001F3#32 .svc ∧
    accepts (at_ 0x8000#32 true .irq (nzcv 0 0 0 0) 0#8) 0x000001DF#32 .sys ∧
    accepts (nonsecure (at_ 0x8000#32 false .mon (nzcv 0 0 0 0) 0#8)) 0x000001D3#32 .svc ∧
    accepts (nonsecure (at_ 0x8000#32 false .mon (nzcv 0 0 0 0) 0#8)) 0x000001DA#32 .hyp ∧
    accepts { a32 with sys := { a32.sys with scrNS := true, hcrTGE := true } } 0x00000010#32 .usr := by
  refine ⟨?_, ?_, ?_, ?_, ?_, ?_⟩ <;> decide

/-- X19. -/
theorem witness_IllegalReturnFaults :
    let i : Instr := .subsA1 14#4 14#4 15#4 4#12
    let s := at_ 0x8000#32 false .irq (nzcv 0 0 0 0) 0#8
    isSubsPc i = true ∧ itPlaceOk s.pstate.it i = true ∧ conditionPassed (condField i) s = true ∧
    s.pstate.m ≠ .hyp ∧ s.pstate.m.spsrBank = some .irq ∧ legalReturn s (s.spsr.get .irq) = false ∧
    s.par.exceptions = .terminal := by decide

/-- X19 where exceptions are entered. -/
theorem witness_IllegalReturnSetsIl :
    let i : Instr := .subsA1 14#4 14#4 15#4 4#12
    let s := entering (at_ 0x8000#32 false .irq (nzcv 0 0 0 0) 0#8)
    isSubsPc i = true ∧ itPlaceOk s.pstate.it i = true ∧ conditionPassed (condField i) s = true ∧
    s.pstate.m ≠ .hyp ∧ s.pstate.m.spsrBank = some .irq ∧ legalReturn s (s.spsr.get .irq) = false ∧
    s.par.exceptions = .entered := by decide

/-- The Illegal Execution state with text at the PC. -/
theorem witness_IllegalStateEntersUndefined :
    let s := illegal (entering (text a32 0x8000 [0x01#8, 0x00#8, 0x41#8, 0xE2#8]))
    nextOf (fetch s) = some [0x01#8, 0x00#8, 0x41#8, 0xE2#8] ∧ s.pstate.il = true ∧ s.par.exceptions = .entered ∧
    takenToUndefinedMode s = true := by decide

/-- An A32 instruction in System mode, and a T32 one inside an IT block in User mode. -/
theorem witness_ReturnUndoesUndefinedEntry :
    (let s := at_ 0x8000#32 false .sys (nzcv 0 1 0 0) 0#8
     s.pstate.t = !true ∧ s.pstate.il = false ∧ s.pstate.ss = false ∧ s.par.softwareStep = false ∧
      itReserved s.pstate.it = false ∧ (s.pstate.it = 0#8 ∧ s.pc &&& 3#32 = 0#32) ∧
      itdOf s.sys s.pstate.m = false ∧ legalReturn (enterUndefinedMode true s) (psrOf s.par s.pstate) = true) ∧
    (let s := at_ 0x8002#32 true .usr (nzcv 0 1 0 0) 0x0C#8
     s.pstate.t = !false ∧ s.pstate.il = false ∧ s.pstate.ss = false ∧ s.par.softwareStep = false ∧
      itReserved s.pstate.it = false ∧ s.pc.getLsbD 0 = false ∧
      itdOf s.sys s.pstate.m = false ∧ legalReturn (enterUndefinedMode false s) (psrOf s.par s.pstate) = true) := by
  decide

/-- V31's word at the PC. -/
theorem witness_StepRunsDecodedInstruction :
    let s := text a32 0x8000 [0x01#8, 0x00#8, 0x41#8, 0xE2#8]
    nextOf (fetch s) = some [0x01#8, 0x00#8, 0x41#8, 0xE2#8] ∧ s.pstate.il = false ∧
    decode s.pstate.t [0x01#8, 0x00#8, 0x41#8, 0xE2#8] = .ok (.subA1 14#4 1#4 0#4 1#12, []) := by decide

/-- An A32 instruction, a 16-bit and a 32-bit T32 one. -/
theorem witness_StepRunsInstructionAtPc :
    (let s := text a32 0x8000 [0x01#8, 0x00#8, 0x41#8, 0xE2#8]
     let i : Instr := .subA1 14#4 1#4 0#4 1#12
     i.wf = true ∧ s.pstate.il = false ∧ s.pstate.t = !i.isA32 ∧
      (if i.isA32 then s.pc &&& 3#32 = 0#32 else s.pc &&& 1#32 = 0#32) ∧
      ∀ k, k < i.length → s.mem.read (s.pc.toNat + k) = (encode i)[k]?) ∧
    (let s := text t32 0x8000 [0x48#8, 0x1E#8]
     let i : Instr := .subT1 1#3 1#3 0#3
     i.wf = true ∧ s.pstate.il = false ∧ s.pstate.t = !i.isA32 ∧
      (if i.isA32 then s.pc &&& 3#32 = 0#32 else s.pc &&& 1#32 = 0#32) ∧
      ∀ k, k < i.length → s.mem.read (s.pc.toNat + k) = (encode i)[k]?) ∧
    (let s := text t32 0x8000 [0xDE#8, 0xF3#8, 0x04#8, 0x8F#8]
     let i : Instr := .subsPcLrT5 14#4 4#8
     i.wf = true ∧ s.pstate.il = false ∧ s.pstate.t = !i.isA32 ∧
      (if i.isA32 then s.pc &&& 3#32 = 0#32 else s.pc &&& 1#32 = 0#32) ∧
      ∀ k, k < i.length → s.mem.read (s.pc.toNat + k) = (encode i)[k]?) := by decide

/-- A state for each clause, the missing byte being the last of the unit; and a word for each answer of the decoder. -/
theorem witness_StepStopsByName :
    (a32.pstate.t = false ∧ (0x8002#32 : Word) &&& 3#32 ≠ 0#32) ∧
    (t32.pstate.t = true ∧ (0x8001#32 : Word) &&& 1#32 ≠ 0#32) ∧
    (let s := text a32 0x8000 [0x01#8, 0x00#8, 0x41#8]
     s.pc &&& 3#32 = 0#32 ∧ s.mem.read (s.pc.toNat + 3) = none) ∧
    (let s := text t32 0x8000 [0x48#8]
     s.pc &&& 1#32 = 0#32 ∧ s.mem.read (s.pc.toNat + 1) = none) ∧
    (let s := text t32 0x8000 [0xDE#8, 0xF3#8, 0x04#8]
     s.mem.read s.pc.toNat = some 0xDE#8 ∧ s.mem.read (s.pc.toNat + 1) = some 0xF3#8 ∧
      isT32Long (halfOf 0xDE#8 0xF3#8) = true ∧ s.mem.read (s.pc.toNat + 3) = none) ∧
    (let s := illegal (text a32 0x8000 [0x01#8, 0x00#8, 0x41#8, 0xE2#8])
     nextOf (fetch s) = some [0x01#8, 0x00#8, 0x41#8, 0xE2#8] ∧ s.pstate.il = true ∧ s.par.exceptions = .terminal) ∧
    (let s := entering (illegal (text (at_ 0x8000#32 true .hyp (nzcv 0 0 0 0) 0#8) 0x8000 [0x48#8, 0x1E#8]))
     nextOf (fetch s) = some [0x48#8, 0x1E#8] ∧ s.pstate.il = true ∧ takenToUndefinedMode s = false) ∧
    (let s := text t32 0x8000 (pairBytes 0xF3DE8F00#32)
     nextOf (fetch s) = some (pairBytes 0xF3DE8F00#32) ∧ s.pstate.il = false) ∧
    decode true (pairBytes 0xF3DE8F00#32) = .error (.notThisInstruction .eret) ∧
    decode true (pairBytes 0xF1A10F01#32) = .error (.unpredictable .t3Rd15Sub) ∧
    decode true (pairBytes 0xF1BF0001#32) = .error (.unpredictable .t3Rn15) ∧
    decode true (pairBytes 0xF2A10F01#32) = .error (.unpredictable .t4Rd15) ∧
    decode true (pairBytes 0xF3D08F00#32) = .error (.unpredictable .t5RnNotLR) ∧
    decode true (pairBytes 0xF3DE8704#32) = .error .shouldBeBits ∧
    decode true (pairBytes 0xF1A11000#32) = .error .t32ExpandImmZeroByte := by decide

/-- V31's step from an Inv state, PC aligned, in a machine whose A32 branches leave no bit set. -/
theorem witness_StepKeepsInvariant : ∃ s t : State, Inv s ∧ PcAligned s ∧ s.par.a32ForceAlignPC ≠ .leaves ∧
    step s = .next t := by
  obtain ⟨t, ht⟩ := exists_next (o := step (text a32 0x8000 [0x01#8, 0x00#8, 0x41#8, 0xE2#8])) (by decide)
  exact ⟨_, t, ⟨by decide, by decide, by decide, by decide, by decide, by decide⟩, by unfold PcAligned; decide,
    by decide, ht⟩

theorem witness_StepKeepsPcAligned : ∃ s t : State, Inv s ∧ PcAligned s ∧ s.par.a32ForceAlignPC ≠ .leaves ∧
    step s = .next t := witness_StepKeepsInvariant

theorem witness_StepKeepsProgramText : ∃ s t : State, step s = .next t :=
  let ⟨s, t, _, _, _, h⟩ := witness_StepKeepsInvariant
  ⟨s, t, h⟩

/-- A register form and a return. -/
theorem witness_RegisterFrame :
    (∃ t, exec (.subA1 14#4 1#4 0#4 1#12) a32 = .next t) ∧
    (∃ t, exec (.subsA1 14#4 14#4 15#4 4#12) (spsrs a32 0x200001D3#32) = .next t) ∧
    a32.par.exceptions = .terminal ∧ (spsrs a32 0x200001D3#32).par.exceptions = .terminal ∧
    physReg a32.pstate.m 0#4 ≠ some (.lr .svc) :=
  ⟨exists_next (by decide), exists_next (by decide), by decide, by decide, by decide⟩

/-- A form without flags, one with flags, and the branch. -/
theorem witness_PstateFrame :
    (Instr.wf (.subwT4 0#1 1#4 0#3 0#4 1#8) = true ∧ isSubsPc (.subwT4 0#1 1#4 0#3 0#4 1#8) = false ∧
      setsFlags t32.pstate.it (.subwT4 0#1 1#4 0#3 0#4 1#8) = false ∧ destOf (.subwT4 0#1 1#4 0#3 0#4 1#8) ≠ regPC ∧
      ∃ t, exec (.subwT4 0#1 1#4 0#3 0#4 1#8) t32 = .next t) ∧
    (Instr.wf (.subA1 14#4 1#4 15#4 0#12) = true ∧ isSubsPc (.subA1 14#4 1#4 15#4 0#12) = false ∧
      ∃ t, exec (.subA1 14#4 1#4 15#4 0#12) a32 = .next t) :=
  ⟨⟨by decide, by decide, by decide, by decide, exists_next (by decide)⟩, by decide, by decide,
    exists_next (by decide)⟩

theorem witness_OtherFormsAdvancePc : destOf (.subsT3 0#1 1#4 0#3 14#4 1#8) ≠ regPC ∧
    ∃ t, exec (.subsT3 0#1 1#4 0#3 14#4 1#8) t32 = .next t := ⟨by decide, exists_next (by decide)⟩

/-- A step into another mode. -/
theorem stepsTo (P : State → Prop) (m : Mode) {s : State} (h : (nextOf (step s)).map (fun t => t.pstate.m) = some m)
    (hm : m ≠ s.pstate.m) (hp : P s) : ∃ s t : State, step s = .next t ∧ t.pstate.m ≠ s.pstate.m ∧ P s := by
  cases hs : step s with
  | next t =>
    rw [hs] at h
    have h2 : t.pstate.m = m := by simpa [nextOf] using h
    exact ⟨s, t, hs, h2 ▸ hm, hp⟩
  | fault r => simp [hs, nextOf] at h
  | refused r => simp [hs, nextOf] at h

/-- V41: IRQ to User; and, where exceptions are entered, the Illegal Execution state in User mode. -/
theorem witness_ModeChangesOnlyByReturnOrEntry :
    (∃ s t : State, step s = .next t ∧ t.pstate.m ≠ s.pstate.m ∧ s.pstate.il = false) ∧
    (∃ s t : State, step s = .next t ∧ t.pstate.m ≠ s.pstate.m ∧ s.par.exceptions = .entered) := by
  constructor
  · exact stepsTo _ .usr (s := (spsrs (at_ 0xF10#32 true .irq (nzcv 1 0 0 0) 0#8) 0x60000010#32).withFetchWord 32
      0xF3DE8F04) (by decide) (by decide) (by decide)
  · exact stepsTo _ .und (s := illegal (entering (text (at_ 0x8000#32 false .usr (nzcv 0 0 0 0) 0#8) 0x8000
      [0x01#8, 0x00#8, 0x41#8, 0xE2#8]))) (by decide) (by decide) (by decide)

theorem witness_UserModeIsConfined : ∃ s t : State, step s = .next t ∧ s.pstate.m = .usr ∧
    s.par.exceptions = .terminal ∧ ¬ seenIn .usr (.sp .svc) := by
  obtain ⟨t, ht⟩ := exists_next (o := step ((at_ 0x8000#32 true .usr (nzcv 0 0 0 0) 0#8).withFetchWord 16 0x1E48))
    (by decide)
  exact ⟨_, t, ht, by decide, by decide, by unfold seenIn; decide⟩

theorem witness_OtherBanksAreNotRead : ¬ seenIn a32.pstate.m (.mid true 4) ∧ a32.par.exceptions = .terminal := by
  unfold seenIn
  decide

theorem witness_DitIsNotRead : Instr.wf (.subsA1 14#4 15#4 1#4 4#12) = true ∧
    isSubsPc (.subsA1 14#4 15#4 1#4 4#12) = false := by decide

/-- A run of one step that ends at its exit. -/
theorem witness_RunEndsAtExit : ∃ (k : Nat) (s t : State), runTo 0x8002#32 k s = some (.next t) ∧ s.pc ≠ 0x8002#32 := by
  obtain ⟨t, ht⟩ := exists_next (o := step (t32.withFetchWord 16 0x1E48)) (by decide)
  have hp : (nextOf (step (t32.withFetchWord 16 0x1E48))).map (fun t => t.pc) = some 0x8002#32 := by decide
  have h2 : t.pc = 0x8002#32 := by
    rw [ht] at hp
    simpa [nextOf] using hp
  have h3 : (t32.withFetchWord 16 0x1E48).pc ≠ 0x8002#32 := by decide
  exact ⟨1, _, t, by simp only [runTo, ht, if_neg h3, if_pos h2], h3⟩

end Sys2Proof.Tests
end

section
/-! SUPPORT. The rotation and the modified immediates, read bit by bit and byte by byte (R9, R11, R12). -/

namespace Sys2Proof.Machine

/-! ## Rotation right (R9) -/

theorem getLsbD_ror (v : Word) (s : Nat) {i : Nat} (hi : i < 32) :
    (ror v s).getLsbD i = v.getLsbD ((i + s) % 32) := by
  simp only [ror, BitVec.getLsbD_rotateRight]
  by_cases hlow : i < 32 - s % 32
  · have hidx : s % 32 + i = (i + s) % 32 := by omega
    simp [hlow, hidx]
  · have hidx : i - (32 - s % 32) = (i + s) % 32 := by omega
    simp [hlow, hi, hidx]

@[simp] theorem ror_zero (v : Word) : ror v 0 = v :=
  BitVec.eq_of_getLsbD_eq fun i hi => by rw [getLsbD_ror v 0 hi, Nat.add_zero, Nat.mod_eq_of_lt hi]

/-- A field extended by zeros and rotated (R11, R12), bit by bit. -/
theorem getLsbD_ror_setWidth {n : Nat} (b : BitVec n) (s : Nat) {i : Nat} (hi : i < 32) :
    (ror (b.setWidth 32) s).getLsbD i = b.getLsbD ((i + s) % 32) := by
  simp [getLsbD_ror _ s hi, Nat.mod_lt]

/-- Settles O9: the rotation's bit, with the amount reduced first. -/
theorem rorMovesBits : Obligations.RorMovesBits := fun v s =>
  ⟨fun i hi => by rw [getLsbD_ror v s hi, Nat.add_mod_mod], ror_zero v⟩

/-! ## The A32 modified immediate (R11) -/

/-- Settles O10: the rotation of a field extended by zeros, and the rule's examples. -/
theorem a32ExpandImmBits : Obligations.A32ExpandImmBits :=
  ⟨fun _ _ hi => getLsbD_ror_setWidth _ _ hi, by decide⟩

/-! ## The T32 modified immediate (R12) -/

/-- The two fields R12 tests are the halves of `imm12[11:8]`. -/
theorem t32Selector_fields {imm12 : BitVec 12} {c : BitVec 4} (h : imm12.extractLsb' 8 4 = c) :
    imm12.extractLsb' 10 2 = c.extractLsb' 2 2 ∧ imm12.extractLsb' 8 2 = c.extractLsb' 0 2 := by
  subst h
  exact ⟨(extract_extract imm12 8 4 2 2 (by omega)).symm, (extract_extract imm12 8 4 0 2 (by omega)).symm⟩

theorem t32ExpandImm_zeroExtended {imm12 : BitVec 12} (h : imm12.extractLsb' 8 4 = 0b0000#4) :
    t32ExpandImm imm12 = (imm12.extractLsb' 0 8).setWidth 32 := by
  simp [t32ExpandImm, t32Selector_fields h]

theorem t32ExpandImm_lowBytes {imm12 : BitVec 12} (h : imm12.extractLsb' 8 4 = 0b0001#4) :
    t32ExpandImm imm12 = 0#8 ++ imm12.extractLsb' 0 8 ++ 0#8 ++ imm12.extractLsb' 0 8 := by
  simp [t32ExpandImm, t32Selector_fields h]

theorem t32ExpandImm_highBytes {imm12 : BitVec 12} (h : imm12.extractLsb' 8 4 = 0b0010#4) :
    t32ExpandImm imm12 = imm12.extractLsb' 0 8 ++ 0#8 ++ imm12.extractLsb' 0 8 ++ 0#8 := by
  simp [t32ExpandImm, t32Selector_fields h]

theorem t32ExpandImm_allBytes {imm12 : BitVec 12} (h : imm12.extractLsb' 8 4 = 0b0011#4) :
    t32ExpandImm imm12 =
      imm12.extractLsb' 0 8 ++ imm12.extractLsb' 0 8 ++ imm12.extractLsb' 0 8 ++ imm12.extractLsb' 0 8 := by
  simp [t32ExpandImm, t32Selector_fields h]

theorem t32ExpandImm_rotated {imm12 : BitVec 12} (h : imm12.extractLsb' 10 2 ≠ 0b00#2) :
    t32ExpandImm imm12 = ror ((1#1 ++ imm12.extractLsb' 0 7).setWidth 32) (imm12.extractLsb' 7 5).toNat := by
  simp [t32ExpandImm, h]

theorem toNat_append_eq_add {m n : Nat} (x : BitVec m) (y : BitVec n) :
    (x ++ y).toNat = x.toNat * 2 ^ n + y.toNat := by
  rw [BitVec.toNat_append, ← Nat.shiftLeft_add_eq_or_of_lt y.isLt, Nat.shiftLeft_eq]

/-- The number four bytes stand for, the highest first. -/
theorem toNat_fourBytes (b3 b2 b1 b0 : Byte) :
    (b3 ++ b2 ++ b1 ++ b0).toNat =
      b3.toNat * 2 ^ 24 + b2.toNat * 2 ^ 16 + b1.toNat * 2 ^ 8 + b0.toNat := by
  simp only [toNat_append_eq_add]
  omega

/-- Settles O11: one equation for each form, the byte patterns as numbers and the rotated form bit by bit. -/
theorem t32ExpandImmForms : Obligations.T32ExpandImmForms := by
  intro imm12 b v
  refine ⟨fun h => ?_, fun h => ?_, fun h => ?_, fun h => ?_, fun h i hi => ?_⟩
  · have hv : v = b.setWidth 32 := t32ExpandImm_zeroExtended h
    have hb := b.isLt
    rw [hv, BitVec.toNat_setWidth]
    omega
  · have hv : v = 0#8 ++ b ++ 0#8 ++ b := t32ExpandImm_lowBytes h
    rw [hv, toNat_fourBytes, BitVec.toNat_ofNat]
    omega
  · have hv : v = b ++ 0#8 ++ b ++ 0#8 := t32ExpandImm_highBytes h
    rw [hv, toNat_fourBytes, BitVec.toNat_ofNat]
    omega
  · have hv : v = b ++ b ++ b ++ b := t32ExpandImm_allBytes h
    rw [hv, toNat_fourBytes]
    omega
  · have hv : v = _ := t32ExpandImm_rotated h
    rw [hv, getLsbD_ror_setWidth _ _ hi]

end Sys2Proof.Machine
end

section
/-! SUPPORT. The fetch and the step by cases: which bytes the fetch asks for, where it stops, and what the step makes of
each of the fetch's and the decoder's answers (R16, R43, R44, R104, R106, R111). -/

namespace Sys2Proof.Machine

/-! ## The alignment tests (R43) as masks -/

theorem and_one_eq_zero (a : Word) : a &&& 1#32 = 0#32 ↔ a.getLsbD 0 = false := by
  simp only [and_eq_iff_bits, Nat.forall_lt_succ_right, Nat.not_lt_zero]
  simp

theorem and_three_eq_zero (a : Word) : a &&& 3#32 = 0#32 ↔ a.extractLsb' 0 2 = 0#2 := by
  simp only [and_eq_iff_bits, extract_eq_iff_bits, Nat.forall_lt_succ_right, Nat.not_lt_zero]
  simp

/-! ## The fetch (R43, R44) -/

section
variable {s : State}

theorem fetch_a32_misaligned (ht : s.pstate.t = false) (hpc : s.pc &&& 3#32 ≠ 0#32) :
    fetch s = .fault (.pcAlignment s.pc) := by
  rw [Ne, and_three_eq_zero] at hpc
  simp [fetch, ht, hpc]

theorem fetch_a32_aligned (ht : s.pstate.t = false) (hpc : s.pc &&& 3#32 = 0#32) : fetch s = fetchA32 s := by
  rw [and_three_eq_zero] at hpc
  simp [fetch, ht, hpc]

theorem fetch_t32_odd (ht : s.pstate.t = true) (hpc : s.pc &&& 1#32 ≠ 0#32) :
    fetch s = .refused .illFormedLaunch := by
  rw [Ne, and_one_eq_zero, Bool.not_eq_false] at hpc
  simp only [fetch, ht, hpc, if_true]

theorem fetch_t32_even (ht : s.pstate.t = true) (hpc : s.pc &&& 1#32 = 0#32) : fetch s = fetchT32 s := by
  rw [and_one_eq_zero] at hpc
  simp only [fetch, ht, hpc, if_true, Bool.false_eq_true, if_false]

theorem fetchA32_missing (h : ∃ k, k < 4 ∧ s.mem.read (s.pc.toNat + k) = none) :
    fetchA32 s = .fault (.fetchAbort s.pc) := by
  obtain ⟨k, hk, hnone⟩ := h
  unfold fetchA32
  split
  · interval_cases k <;> simp_all
  · rfl

theorem fetchT32_missing_first (h : ∃ k, k < 2 ∧ s.mem.read (s.pc.toNat + k) = none) :
    fetchT32 s = .fault (.fetchAbort s.pc) := by
  obtain ⟨k, hk, hnone⟩ := h
  unfold fetchT32
  split
  · interval_cases k <;> simp_all
  · rfl

theorem fetchT32_missing_second {b0 b1 : Byte} (h0 : s.mem.read s.pc.toNat = some b0)
    (h1 : s.mem.read (s.pc.toNat + 1) = some b1) (hlong : isT32Long (halfOf b0 b1) = true)
    (h : ∃ k, (k = 2 ∨ k = 3) ∧ s.mem.read (s.pc.toNat + k) = none) :
    fetchT32 s = .fault (.fetchAbort (s.pc + 2#32)) := by
  obtain ⟨k, hk, hnone⟩ := h
  simp only [fetchT32, h0, h1, hlong, if_true]
  split
  · obtain rfl | rfl := hk <;> simp_all
  · rfl

/-! ## The step on each answer of the fetch and of the decoder (R16, R104, R111) -/

theorem step_of_fetch_fault {r : Fault} (hf : fetch s = .fault r) : step s = .fault r := by
  simp only [step, hf]

theorem step_of_fetch_refused {r : Refusal} (hf : fetch s = .refused r) : step s = .refused r := by
  simp only [step, hf]

theorem step_of_illegalState {bytes : List Byte} (hf : fetch s = .next bytes) (hil : s.pstate.il = true) :
    step s = takeUndefinedInstruction (!s.pstate.t) (fetchedBits s.pstate.t bytes) s := by
  simp only [step, hf, hil, if_true]

theorem step_of_decode_error {bytes : List Byte} {e : Reject} (hf : fetch s = .next bytes)
    (hil : s.pstate.il = false) (hd : decode s.pstate.t bytes = .error e) : step s = rejected s.pc e := by
  simp only [step, hf, hil, hd, Bool.false_eq_true, if_false]

theorem step_of_decode_ok {bytes rest : List Byte} {i : Instr} (hf : fetch s = .next bytes)
    (hil : s.pstate.il = false) (hd : decode s.pstate.t bytes = .ok (i, rest)) : step s = exec i s := by
  simp only [step, hf, hil, hd, Bool.false_eq_true, if_false]

/-- The exception is a fault where none is entered (log 10), and where it is taken to Hyp mode (log 11). -/
theorem takeUndefinedInstruction_terminal (isA32 : Bool) (bits : Word)
    (h : s.par.exceptions = .terminal ∨ takenToUndefinedMode s = false) :
    takeUndefinedInstruction isA32 bits s = .fault (.undefinedInstruction s.pc bits) := by
  unfold takeUndefinedInstruction
  cases he : s.par.exceptions with
  | terminal => rfl
  | entered =>
    have htaken : takenToUndefinedMode s = false := h.resolve_left (by simp [he])
    simp [htaken]

end

/-! ## The obligations -/

/-- Settles O38: the step's last branch. -/
theorem stepRunsDecodedInstruction : Obligations.StepRunsDecodedInstruction :=
  fun _ _ _ _ hf hil hd => step_of_decode_ok hf hil hd

/-- Settles O40: each clause is the fetch's or the decoder's answer, carried through the step. -/
theorem stepStopsByName : Obligations.StepStopsByName := by
  intro s
  refine ⟨fun ht hpc => ?_, fun ht hpc => ?_, fun ht hpc hmiss => ?_, fun ht hpc hmiss => ?_,
    fun b0 b1 ht hpc h0 h1 hlong hmiss => ?_, fun bytes hf hil hx => ?_, fun bytes e hf hil hd => ?_⟩
  · exact step_of_fetch_fault (fetch_a32_misaligned ht hpc)
  · exact step_of_fetch_refused (fetch_t32_odd ht hpc)
  · exact step_of_fetch_fault ((fetch_a32_aligned ht hpc).trans (fetchA32_missing hmiss))
  · exact step_of_fetch_fault ((fetch_t32_even ht hpc).trans (fetchT32_missing_first hmiss))
  · exact step_of_fetch_fault ((fetch_t32_even ht hpc).trans (fetchT32_missing_second h0 h1 hlong hmiss))
  · exact (step_of_illegalState hf hil).trans (takeUndefinedInstruction_terminal _ _ hx)
  · have hstep : step s = rejected s.pc e := step_of_decode_error hf hil hd
    refine ⟨fun t he => ?_, fun he => ?_, fun he => ?_, fun he => ?_, fun he => ?_, fun he => ?_, fun he => ?_⟩ <;>
      (subst he; exact hstep)

end Sys2Proof.Machine
end

section
/-! SUPPORT. What an instruction leaves unchanged (R36): the frame of every instruction that neither returns from an
exception nor takes one, and the statements about registers, PSTATE and User mode that follow. -/

namespace Sys2Proof.Machine

/-! ## The shared operations, each as one update of the state -/

theorem completed_eq (x : Decoded) (s : State) :
    completed x s = { s with
      pc := s.pc + BitVec.ofNat 32 x.len
      pstate := { s.pstate with it := itAfter x s.pstate.it } } := rfl

theorem writeResult_eq (x : Decoded) (v : Word) (f : Nzcv) (s : State) :
    writeResult x v f s = { s with
      regs := (writeReg x.d v s).regs
      pstate := { s.pstate with flags := if x.setflags then f else s.pstate.flags } } := by
  rw [writeResult, writeReg_eq]
  cases x.setflags <;> rfl

/-- A register write leaves every physical register but the one its number names (R22, R23). -/
theorem writeReg_get_other {n : RegNum} {v : Word} {s : State} {p : PhysReg} (h : physReg s.pstate.m n ≠ some p) :
    (writeReg n v s).regs.get p = s.regs.get p := by
  unfold writeReg
  split
  · rename_i q hq
    have hne : q ≠ p := fun hqp => h (hqp ▸ hq)
    simp [regFile_get_set, hne]
  · rfl

/-- A branch changes the PC, T and the IT state alone (R90 to R92). -/
theorem aluWritePC_next_eq {x : Decoded} {a : Word} {s t : State} (h : aluWritePC x a s = .next t) :
    t = { s with pc := t.pc, pstate := { s.pstate with it := itAfter x s.pstate.it, t := t.pstate.t } } := by
  unfold aluWritePC at h
  split at h
  · rename_i ha32
    have hit : itAfter x s.pstate.it = s.pstate.it := by simp [itAfter, ha32]
    rw [hit]
    obtain ⟨_, rfl⟩ | ⟨_, _, rfl⟩ | ⟨_, _, _, rfl⟩ | ⟨_, _, _, rfl⟩ := bxWritePC_next.1 h <;> rfl
  · cases h
    rfl

/-! ## The frame (R36) -/

/-- What an instruction that neither returns from an exception nor takes one leaves: every register but its
destination, all of PSTATE but the flags it sets, the IT state it advances and the T a branch sets, and everything
outside the registers, the PC and PSTATE. -/
structure PlainFrame (x : Decoded) (s t : State) : Prop where
  regs : ∀ p, physReg s.pstate.m x.d ≠ some p → t.regs.get p = s.regs.get p
  flags : x.setflags = false → t.pstate.flags = s.pstate.flags
  instrSet : x.d ≠ regPC → t.pstate.t = s.pstate.t
  pstate : t.pstate =
    { s.pstate with flags := t.pstate.flags, it := itAfter x s.pstate.it, t := t.pstate.t }
  spsr : t.spsr = s.spsr
  elrHyp : t.elrHyp = s.elrHyp
  mem : t.mem = s.mem
  exclusive : t.exclusive = s.exclusive
  event : t.event = s.event
  draws : t.draws = s.draws

theorem PlainFrame.of_completed (x : Decoded) (s : State) : PlainFrame x s (completed x s) :=
  ⟨fun _ _ => rfl, fun _ => rfl, fun _ => rfl, rfl, rfl, rfl, rfl, rfl, rfl, rfl⟩

theorem PlainFrame.of_wrote (x : Decoded) (v : Word) (f : Nzcv) (s : State) :
    PlainFrame x s (completed x (writeResult x v f s)) := by
  rw [completed_eq, writeResult_eq]
  exact ⟨fun _ hp => writeReg_get_other hp, fun hf => by simp [hf], fun _ => rfl, rfl, rfl, rfl, rfl, rfl, rfl, rfl⟩

theorem PlainFrame.of_branched {x : Decoded} {a : Word} {s t : State} (hd : x.d = regPC)
    (h : aluWritePC x a s = .next t) : PlainFrame x s t := by
  rw [aluWritePC_next_eq h]
  exact ⟨fun _ _ => rfl, fun _ => rfl, fun hne => absurd hd hne, rfl, rfl, rfl, rfl, rfl, rfl, rfl⟩

/-- An instruction keeps the frame, or it is a SUBS with destination PC that returned by the mode's SPSR or was
UNDEFINED and entered its exception. -/
theorem Effect.plainFrame_or {x : Decoded} {s t : State} (h : Effect x s t) :
    PlainFrame x s t ∨
    (x.d = regPC ∧ x.setflags = true ∧
      ((∃ b legal a, s.pstate.m.spsrBank = some b ∧ t = returnState legal a (s.spsr.get b) s) ∨
        s.par.exceptions = .entered)) := by
  cases h with
  | passed _ ht => exact .inl (ht ▸ .of_completed x s)
  | wrote _ _ _ ht => exact .inl (ht ▸ .of_wrote x _ _ s)
  | branched _ hd _ ht => exact .inl (.of_branched hd ht)
  | returned b legal _ hd hf _ hb _ _ ht => exact .inr ⟨hd, hf, .inl ⟨b, legal, _, hb, ht⟩⟩
  | entered _ hd hf _ _ he _ _ => exact .inr ⟨hd, hf, .inr he⟩

/-! ## The obligations about the frame -/

/-- Settles O49: with no SPSR to return by and no exception entered, a step from User mode keeps the frame, and the
destination is a register User mode sees. -/
theorem userModeIsConfined : Obligations.UserModeIsConfined := by
  intro s t hstep hm hx
  obtain ⟨_, he, _⟩ | ⟨_, _, i, _, _, _, hexec⟩ := step_next hstep
  · cases hx.symm.trans he
  · obtain hframe | ⟨_, _, ⟨b, _, _, hb, _⟩ | he⟩ := (exec_next hexec).plainFrame_or
    · have hregs : ∀ p, ¬ seenIn .usr p → t.regs.get p = s.regs.get p :=
        fun p hp => hframe.regs p fun hd => hp ⟨_, hm ▸ hd⟩
      rw [hframe.pstate]
      exact ⟨hm, rfl, rfl, rfl, rfl, hframe.spsr, hframe.elrHyp, hregs⟩
    · cases (hm ▸ hb : Mode.usr.spsrBank = some b)
    · cases hx.symm.trans he

/-- Settles O45: the frame, and an exception return, which writes no register and no SPSR (R109). -/
theorem registerFrame : Obligations.RegisterFrame := by
  intro i s t hexec hx
  obtain hframe | ⟨_, _, ⟨b, legal, a, _, rfl⟩ | he⟩ := (exec_next hexec).plainFrame_or
  · have hregs := hframe.regs
    rw [decodedOf_d] at hregs
    exact ⟨hregs, hframe.spsr, hframe.elrHyp, fun a => by rw [hframe.mem]⟩
  · exact ⟨fun _ _ => rfl, rfl, rfl, fun _ => rfl⟩
  · cases hx.symm.trans he

/-- Settles O46: a well-formed instruction with destination PC that sets flags is a SUBS with destination PC, so every
other one keeps the frame. -/
theorem pstateFrame : Obligations.PstateFrame := by
  intro i s t hwf hnot hexec
  obtain hframe | ⟨hd, hf, _⟩ := (exec_next hexec).plainFrame_or
  · obtain ⟨_, hflags, ht, hpstate, _, _, _, hexclusive, hevent, hdraws⟩ := hframe
    rw [decodedOf_setflags] at hflags
    rw [decodedOf_d] at ht
    rw [itAfter, decodedOf_isA32] at hpstate
    exact ⟨hpstate, hflags, ht, hexclusive, hevent, hdraws⟩
  · rw [decodedOf_d] at hd
    rw [decodedOf_setflags] at hf
    rw [isSubsPc_of_dest i _ hwf hd hf] at hnot
    cases hnot

/-- Settles O47: with a destination other than the PC an instruction only completes, or writes and completes. -/
theorem otherFormsAdvancePc : Obligations.OtherFormsAdvancePc := by
  intro i s t hd hexec
  rw [← decodedOf_d s i] at hd
  have advanced : ∀ {u : State}, u.pc = s.pc → s.pc.toNat + (decodedOf s i).len < 2 ^ 32 →
      t = completed (decodedOf s i) u → s.pc.toNat + i.length < 2 ^ 32 ∧ t.pc.toNat = s.pc.toNat + i.length := by
    intro u hu hpc ht
    rw [decodedOf_len] at hpc
    refine ⟨hpc, ?_⟩
    rw [ht, completed_eq, decodedOf_len, hu, BitVec.toNat_add, BitVec.toNat_ofNat]
    omega
  cases exec_next hexec with
  | passed hpc ht => exact advanced rfl hpc ht
  | wrote _ _ hpc ht => exact advanced (writeResult_pc _ _ _ s) hpc ht
  | branched _ hpc => exact absurd hpc hd
  | returned _ _ _ hpc => exact absurd hpc hd
  | entered _ hpc => exact absurd hpc hd

end Sys2Proof.Machine
end

section
/-! SUPPORT. What an instruction does not read (R22, R33): an update of the state that no accessor sees and that every
operation carries along is carried through exec. Two such updates are that of a register of another mode and that of
DIT. -/

namespace Sys2Proof.Machine

@[simp] theorem mapNext_next {σ φ ρ : Type} (f : σ → σ) (s : σ) :
    mapNext f (.next s : Host.Outcome σ φ ρ) = .next (f s) := rfl

@[simp] theorem mapNext_fault {σ φ ρ : Type} (f : σ → σ) (r : φ) :
    mapNext f (.fault r : Host.Outcome σ φ ρ) = .fault r := rfl

@[simp] theorem mapNext_refused {σ φ ρ : Type} (f : σ → σ) (r : ρ) :
    mapNext f (.refused r : Host.Outcome σ φ ρ) = .refused r := rfl

/-- R62's test on the IT state fails for T5 alone, inside an IT block and not last. -/
theorem exec_of_itPlaceOk_false {i : Instr} {s : State} (h : itPlaceOk s.pstate.it i = false) :
    exec i s = .refused (.unpredictable .t5NotLastInIT) := by
  cases i with
  | subsPcLrT5 rn imm8 =>
    have hin : (inITBlock s.pstate.it && !lastInITBlock s.pstate.it) = true := by simpa [itPlaceOk] using h
    simp [exec, execSubsPcLrT5, hin]
  | _ => cases h

/-! ## Updates no accessor sees -/

/-- An update of the state that touches nothing the Operation reads in mode `m` and commutes with what it writes. -/
structure Unread (m : Mode) (f : State → State) : Prop where
  pc_eq : ∀ s, (f s).pc = s.pc
  it_eq : ∀ s, (f s).pstate.it = s.pstate.it
  flags_eq : ∀ s, (f s).pstate.flags = s.pstate.flags
  instrSet_eq : ∀ s, (f s).pstate.t = s.pstate.t
  par_eq : ∀ s, (f s).par = s.par
  readReg_eq : ∀ a n s, s.pstate.m = m → readReg a n (f s) = readReg a n s
  writeReg_comm : ∀ n v s, s.pstate.m = m → writeReg n v (f s) = f (writeReg n v s)
  setPc_comm : ∀ s a, (f s).setPc a = f (s.setPc a)
  setIT_comm : ∀ s it, (f s).setIT it = f (s.setIT it)
  setFlags_comm : ∀ s g, (f s).setFlags g = f (s.setFlags g)
  setT_comm : ∀ s t, (f s).setT t = f (s.setT t)

namespace Unread

variable {m : Mode} {f : State → State}

theorem complete_comm (hf : Unread m f) (x : Decoded) (s : State) :
    complete x (f s) = mapNext f (complete x s) := by
  simp only [complete, hf.pc_eq, hf.it_eq, hf.setPc_comm, hf.setIT_comm]
  split <;> rfl

theorem writeResult_comm (hf : Unread m f) (x : Decoded) (v : Word) (g : Nzcv) {s : State} (hm : s.pstate.m = m) :
    writeResult x v g (f s) = f (writeResult x v g s) := by
  simp only [writeResult, hf.writeReg_comm _ _ _ hm, hf.setFlags_comm]
  split <;> rfl

theorem bxWritePC_comm (hf : Unread m f) (a : Word) (s : State) :
    bxWritePC a (f s) = mapNext f (bxWritePC a s) := by
  simp only [bxWritePC, hf.par_eq, hf.setT_comm, hf.setPc_comm]
  split
  · rfl
  · split
    · rfl
    · split <;> rfl

theorem aluWritePC_comm (hf : Unread m f) (x : Decoded) (a : Word) (s : State) :
    aluWritePC x a (f s) = mapNext f (aluWritePC x a s) := by
  simp only [aluWritePC, branchWritePC, hf.bxWritePC_comm, hf.it_eq, hf.setIT_comm, hf.instrSet_eq, hf.setPc_comm]
  split <;> rfl

/-- The Operation carries the update along wherever its exception return does. -/
theorem subImmediate_comm (hf : Unread m f) (x : Decoded) {s : State} (hm : s.pstate.m = m)
    (hret : ∀ a, x.d = regPC → x.setflags = true →
      aluExceptionReturn x a (f s) = mapNext f (aluExceptionReturn x a s)) :
    subImmediate x (f s) = mapNext f (subImmediate x s) := by
  have hpassed : executePassed x (f s) = mapNext f (executePassed x s) := by
    simp only [executePassed, hf.readReg_eq _ _ _ hm, hf.writeResult_comm _ _ _ hm, hf.complete_comm,
      hf.aluWritePC_comm]
    split
    · split
      · exact hret _ ‹_› ‹_›
      · rfl
    · rfl
  simp only [subImmediate, hf.it_eq, hf.flags_eq, hpassed, hf.complete_comm]
  split
  · rfl
  · split <;> rfl

/-- So does exec, whose own test reads the IT state alone (R62). -/
theorem exec_comm (hf : Unread m f) (i : Instr) {s : State} (hm : s.pstate.m = m)
    (hret : ∀ a, destOf i = regPC → setsFlags s.pstate.it i = true →
      aluExceptionReturn (decodedOf s i) a (f s) = mapNext f (aluExceptionReturn (decodedOf s i) a s)) :
    exec i (f s) = mapNext f (exec i s) := by
  have hdec : decodedOf (f s) i = decodedOf s i := by cases i <;> simp only [decodedOf, hf.it_eq]
  cases hok : itPlaceOk s.pstate.it i with
  | true =>
    rw [exec_eq_subImmediate i s hok, exec_eq_subImmediate i (f s) (by rw [hf.it_eq, hok]), hdec]
    exact hf.subImmediate_comm _ hm fun a hd hs => hret a (by simpa using hd) (by simpa using hs)
  | false => rw [exec_of_itPlaceOk_false hok, exec_of_itPlaceOk_false (by rw [hf.it_eq, hok]), mapNext_refused]

end Unread

/-! ## A register of another mode (R22) -/

/-- The state with `v` in the physical register `q`. -/
def State.setPhysReg (q : PhysReg) (v : Word) (s : State) : State := { s with regs := s.regs.set q v }

theorem ne_of_not_seenIn {m : Mode} {n : RegNum} {p q : PhysReg} (hq : ¬ seenIn m q) (hp : physReg m n = some p) :
    q ≠ p := fun h => hq ⟨n, h ▸ hp⟩

theorem setPhysReg_unread {m : Mode} {q : PhysReg} (hq : ¬ seenIn m q) (v : Word) :
    Unread m (State.setPhysReg q v) where
  pc_eq _ := rfl
  it_eq _ := rfl
  flags_eq _ := rfl
  instrSet_eq _ := rfl
  par_eq _ := rfl
  readReg_eq a n s hm := by
    cases hp : physReg s.pstate.m n with
    | none => simp [readReg, State.setPhysReg, hp]
    | some p =>
      have hne : q ≠ p := ne_of_not_seenIn (hm ▸ hq) hp
      rw [readReg_of_physReg a n s p hp, readReg_of_physReg a n (s.setPhysReg q v) p hp]
      simp [State.setPhysReg, regFile_get_set, hne]
  writeReg_comm n w s hm := by
    cases hp : physReg s.pstate.m n with
    | none => simp [writeReg, State.setPhysReg, hp]
    | some p =>
      have hne : q ≠ p := ne_of_not_seenIn (hm ▸ hq) hp
      rw [writeReg_of_physReg n w s p hp, writeReg_of_physReg n w (s.setPhysReg q v) p hp]
      simp [State.setPhysReg, regFile_set_comm _ _ _ _ _ hne]
  setPc_comm _ _ := rfl
  setIT_comm _ _ := rfl
  setFlags_comm _ _ := rfl
  setT_comm _ _ := rfl

/-- An exception return reads no register once its target is known (R102, R104). -/
theorem exceptionReturn_setPhysReg (a spsr : Word) (q : PhysReg) (v : Word) (s : State) :
    exceptionReturn a spsr (s.setPhysReg q v) = mapNext (State.setPhysReg q v) (exceptionReturn a spsr s) := by
  have hlegal : legalReturn (s.setPhysReg q v) spsr = legalReturn s spsr := rfl
  have hpar : (s.setPhysReg q v).par = s.par := rfl
  simp only [exceptionReturn, hlegal, hpar]
  split
  · rfl
  · split <;> rfl

theorem takeUndefinedInstruction_setPhysReg (isA32 : Bool) (bits : Word) (q : PhysReg) (v : Word) {s : State}
    (hx : s.par.exceptions = .terminal) :
    takeUndefinedInstruction isA32 bits (s.setPhysReg q v) =
      mapNext (State.setPhysReg q v) (takeUndefinedInstruction isA32 bits s) := by
  rw [takeUndefinedInstruction_terminal isA32 bits (.inl hx),
    takeUndefinedInstruction_terminal (s := s.setPhysReg q v) isA32 bits (.inl hx)]
  rfl

theorem aluExceptionReturn_setPhysReg (x : Decoded) (a : Word) {q : PhysReg} (v : Word) {s : State}
    (hq : ¬ seenIn s.pstate.m q) (hx : s.par.exceptions = .terminal) :
    aluExceptionReturn x a (s.setPhysReg q v) = mapNext (State.setPhysReg q v) (aluExceptionReturn x a s) := by
  have hpstate : (s.setPhysReg q v).pstate = s.pstate := rfl
  have hspsr : (s.setPhysReg q v).spsr = s.spsr := rfl
  have hpar : (s.setPhysReg q v).par = s.par := rfl
  simp only [aluExceptionReturn, userSysReturn, hpstate, hspsr, hpar, exceptionReturn_setPhysReg,
    takeUndefinedInstruction_setPhysReg _ _ _ _ hx, (setPhysReg_unread hq v).complete_comm]
  split
  · rfl
  · split
    · split <;> rfl
    · rfl

/-- Settles O50: the register's update is unread in a mode that does not see it, and an exception return carries it
along. -/
theorem otherBanksAreNotRead : Obligations.OtherBanksAreNotRead := fun i _ _ v hq hx =>
  (setPhysReg_unread hq v).exec_comm i rfl fun a _ _ => aluExceptionReturn_setPhysReg _ a v hq hx

/-! ## Data independent timing (R33) -/

/-- The state with DIT set to `b`. -/
def State.setDit (b : Bool) (s : State) : State := { s with pstate := { s.pstate with dit := b } }

theorem setDit_unread (m : Mode) (b : Bool) : Unread m (State.setDit b) where
  pc_eq _ := rfl
  it_eq _ := rfl
  flags_eq _ := rfl
  instrSet_eq _ := rfl
  par_eq _ := rfl
  readReg_eq _ _ _ _ := rfl
  writeReg_comm n v s _ := by
    have hm : (s.setDit b).pstate.m = s.pstate.m := rfl
    simp only [writeReg, hm]
    split <;> rfl
  setPc_comm _ _ := rfl
  setIT_comm _ _ := rfl
  setFlags_comm _ _ := rfl
  setT_comm _ _ := rfl

/-- Settles O51: DIT's update is unread, and only a SUBS with destination PC reaches the exception return. -/
theorem ditIsNotRead : Obligations.DitIsNotRead := by
  intro i s b hwf hnot
  refine (setDit_unread s.pstate.m b).exec_comm i rfl fun _ hd hs => ?_
  rw [isSubsPc_of_dest i _ hwf hd hs] at hnot
  cases hnot

end Sys2Proof.Machine
end

section
/-! SUPPORT. The alignment of the PC (R24, R43): every way a step moves the PC leaves an A32 one a multiple of 4. -/

namespace Sys2Proof.Machine

/-! ## What the decoder answers in A32 -/

theorem length_of_decodeA32 {w : Word} {i : Instr} (h : decodeA32 w = .ok i) : i.length = 4 := by
  simp only [decodeA32] at h
  split at h
  · split at h
    · split at h
      · cases h
      · split at h <;> cases h
        rfl
    · split at h <;> cases h
      rfl
  · cases h

/-- An instruction the A32 decoder answers has four bytes (R50, R51). -/
theorem length_of_decode_a32 {bytes rest : List Byte} {i : Instr} (h : decode false bytes = .ok (i, rest)) :
    i.length = 4 := by
  change decodeA32Bytes bytes = .ok (i, rest) at h
  unfold decodeA32Bytes at h
  split at h
  · split at h
    · cases h
    · rename_i hw
      cases h
      exact length_of_decodeA32 hw
  · cases h

/-! ## Bits [1:0] of an address -/

/-- The bits are 0 exactly on the multiples of 4. -/
theorem lowBits_eq_zero_iff (a : Word) : a.extractLsb' 0 2 = 0#2 ↔ a.toNat % 4 = 0 := by
  simp [← BitVec.toNat_inj]

theorem lowBits_add_four {a : Word} (h : a.extractLsb' 0 2 = 0#2) : (a + 4#32).extractLsb' 0 2 = 0#2 := by
  rw [lowBits_eq_zero_iff] at h ⊢
  rw [BitVec.toNat_add, BitVec.toNat_ofNat]
  omega

@[simp] theorem lowBits_alignA32 (a : Word) : (alignA32 a).extractLsb' 0 2 = 0#2 :=
  BitVec.extractLsb'_append_eq_right

theorem lowBits_of_getLsbD {a : Word} (h0 : a.getLsbD 0 = false) (h1 : a.getLsbD 1 = false) :
    a.extractLsb' 0 2 = 0#2 :=
  (and_three_eq_zero a).1 ((and_three a false false).2 ⟨h1, h0⟩)

theorem lowBits_vectorBase {sys : SysCtl} (h : sys.vbar.extractLsb' 0 2 = 0#2) :
    (vectorBase sys).extractLsb' 0 2 = 0#2 := by
  unfold vectorBase
  split
  · decide
  · exact h

/-! ## Each way a step moves the PC -/

theorem pcAligned_completed {x : Decoded} {s : State} (hlen : s.pstate.t = false → x.len = 4) (h : PcAligned s) :
    PcAligned (completed x s) := by
  intro hil ht
  rw [completed_eq] at hil ht ⊢
  rw [hlen ht]
  exact lowBits_add_four (h hil ht)

theorem pcAligned_writeResult (x : Decoded) (v : Word) (f : Nzcv) {s : State} (h : PcAligned s) :
    PcAligned (writeResult x v f s) := by
  rw [writeResult_eq]
  exact h

/-- A branch to A32 aligns its target, unless the machine leaves bit 1 set (R91, R92). -/
theorem pcAligned_aluWritePC {x : Decoded} {a : Word} {s t : State} (hpar : s.par.a32ForceAlignPC ≠ .leaves)
    (h : aluWritePC x a s = .next t) : PcAligned t := by
  intro _ ht
  unfold aluWritePC at h
  split at h
  · obtain ⟨_, rfl⟩ | ⟨h0, h1, rfl⟩ | ⟨_, _, _, rfl⟩ | ⟨_, _, hleaves, _⟩ := bxWritePC_next.1 h
    · cases ht
    · exact lowBits_of_getLsbD h0 h1
    · exact lowBits_alignA32 a
    · exact absurd hleaves hpar
  · cases h
    simp only [setPc_pstate, setIT_pstate] at ht
    simp [ht]

/-- A return to A32 aligns its target (R102). -/
theorem pcAligned_returnState (legal : Bool) (a spsr : Word) (s : State) : PcAligned (returnState legal a spsr s) := by
  intro hil ht
  rw [(returnState_leaves s legal a spsr).pcA32 hil ht, ← alignA32_eq_and]
  exact lowBits_alignA32 a

/-- The vector is a multiple of 4 where VBAR is (R107). -/
theorem pcAligned_enterUndefinedMode (isA32 : Bool) {s : State} (h : s.sys.vbar.extractLsb' 0 2 = 0#2) :
    PcAligned (enterUndefinedMode isA32 s) := fun _ _ => lowBits_add_four (lowBits_vectorBase h)

/-- Settles O43: each effect of an instruction leaves the PC aligned, and so does the entry from the Illegal Execution
state. -/
theorem stepKeepsPcAligned : Obligations.StepKeepsPcAligned := by
  intro s t hinv hal hpar hstep
  obtain ⟨_, _, _, rfl⟩ | ⟨_, bytes, i, rest, _, hdec, hexec⟩ := step_next hstep
  · exact pcAligned_enterUndefinedMode _ hinv.vbar
  · have hlen : s.pstate.t = false → (decodedOf s i).len = 4 := fun ht => by
      rw [decodedOf_len]
      exact length_of_decode_a32 (ht ▸ hdec)
    cases exec_next hexec with
    | passed _ ht => exact ht ▸ pcAligned_completed hlen hal
    | wrote _ _ _ ht =>
      rw [ht]
      refine pcAligned_completed (fun h => hlen ?_) (pcAligned_writeResult _ _ _ hal)
      rwa [writeResult_eq] at h
    | branched _ _ _ ht => exact pcAligned_aluWritePC hpar ht
    | returned _ _ _ _ _ _ _ _ _ ht => exact ht ▸ pcAligned_returnState _ _ _ s
    | entered _ _ _ _ _ _ _ ht => exact ht ▸ pcAligned_enterUndefinedMode _ hinv.vbar

end Sys2Proof.Machine
end

section
/-! SUPPORT. The accessors and small functions of the state, each over all its arguments: the banking table (R22), the
register accessors (R23), the conditions (R27), the IT state (R28), the saved PSTATE (R32), reset (R35). -/

namespace Sys2Proof.Machine

/-! ## The registers (R22, R23) -/

/-- Settles O16: a number below 15 names a physical register, which the accessors read and write. -/
theorem registerAccessors : Obligations.RegisterAccessors := by
  intro s n v isA32
  refine ⟨fun hn => ?_, ?_, ?_, ?_⟩
  · obtain ⟨p, hp⟩ := Option.ne_none_iff_exists'.1 (mt (physReg_eq_none s.pstate.m n).1 hn)
    refine ⟨p, hp, readReg_of_physReg _ n s p hp, ?_, fun q hq => writeReg_get_other ?_, writeReg_eq n v s⟩
    · simp [writeReg_of_physReg n v s p hp, regFile_get_set]
    · rw [hp]
      exact fun h => hq (Option.some.inj h).symm
  · simp [readReg_pc, BitVec.toNat_add]
  · simp [readReg_pc, BitVec.toNat_add]
  · simp [writeReg, (physReg_eq_none s.pstate.m regPC).2 rfl]

/-- Settles O17: R22's table, read mode by mode and number by number. -/
theorem bankingTable : Obligations.BankingTable := by
  refine ⟨fun m n => ?_, fun m n => ?_, fun m => ?_, fun m => (physReg_eq_none m regPC).2 rfl⟩
  · revert n
    cases m <;> decide
  · revert n
    cases m <;> decide
  · cases m <;> decide

/-! ## The conditions (R27) -/

/-- Settles O12: the test of each code, at that code. -/
theorem conditionCodes : Obligations.ConditionCodes := fun _ =>
  ⟨rfl, rfl, rfl, rfl, rfl, rfl, rfl, rfl, rfl, rfl, rfl, rfl, rfl, rfl, rfl, rfl⟩

/-! ## The IT state (R27, R28) -/

theorem and_seven_eq_zero (it : BitVec 8) : it &&& 0x07#8 = 0#8 ↔ it.extractLsb' 0 3 = 0b000#3 := by
  simp only [and_eq_iff_bits, extract_eq_iff_bits, Nat.forall_lt_succ_right, Nat.not_lt_zero]
  simp

theorem itAdvance_of_clear {it : BitVec 8} (h : it.extractLsb' 0 3 = 0b000#3) : itAdvance it = 0#8 := if_pos h

theorem itAdvance_of_not_clear {it : BitVec 8} (h : it.extractLsb' 0 3 ≠ 0b000#3) :
    itAdvance it = it.extractLsb' 5 3 ++ (it.extractLsb' 0 5 <<< 1) := if_neg h

/-- The advance's two fields as masks of the whole. -/
theorem itFields_eq_masks (it : BitVec 8) :
    it.extractLsb' 5 3 ++ (it.extractLsb' 0 5 <<< 1) = (it &&& 0xE0#8) ||| ((it <<< 1) &&& 0x1F#8) := by
  apply BitVec.eq_of_getLsbD_eq
  intro k hk
  simp only [BitVec.getLsbD_append, BitVec.getLsbD_or]
  interval_cases k <;> simp

/-- Each advance brings one more 0 in from below. -/
theorem getLsbD_itAdvance {it : BitVec 8} {k : Nat} (h : ∀ j, j < k → it.getLsbD j = false) (j : Nat)
    (hj : j < k + 1) (hj5 : j < 5) : (itAdvance it).getLsbD j = false := by
  by_cases hclear : it.extractLsb' 0 3 = 0b000#3
  · simp [itAdvance_of_clear hclear]
  · rw [itAdvance_of_not_clear hclear, BitVec.getLsbD_append]
    cases j with
    | zero => simp
    | succ j => simp [hj5, h j (by omega)]

/-- Settles O13: the two branches of the advance as masks, and the zeros each of four advances brings in. -/
theorem itAdvanceShifts : Obligations.ItAdvanceShifts := by
  intro it
  refine ⟨fun h => ?_, fun h => ?_, fun h => ?_, ?_⟩
  · exact itAdvance_of_clear ((and_seven_eq_zero it).1 h)
  · rw [itAdvance_of_not_clear (mt (and_seven_eq_zero it).2 h), itFields_eq_masks]
  · apply itAdvance_of_clear
    have hlast : it.extractLsb' 0 4 = 0b1000#4 := beq_iff_eq.1 h
    have hfield := extract_extract it 0 4 0 3 (by omega)
    rw [hlast] at hfield
    exact hfield.symm
  · have h1 := getLsbD_itAdvance (it := it) (k := 0) (by simp)
    have h2 := getLsbD_itAdvance fun j hj => h1 j hj (by omega)
    have h3 := getLsbD_itAdvance fun j hj => h2 j hj (by omega)
    apply itAdvance_of_clear
    rw [extract_eq_iff_bits]
    intro k hk
    simpa using h3 k (by omega) (by omega)

/-- A reserved IT state by its two nibbles. -/
theorem currentCond_reserved {it : BitVec 8} (hhigh : it &&& 0xF0#8 ≠ 0#8) (hlow : it &&& 0x0F#8 = 0#8) :
    inITBlock it = false ∧ currentCond none it = none := by
  have hnibble : it.extractLsb' 0 4 = 0#4 := by
    simp only [and_eq_iff_bits, extract_eq_iff_bits, Nat.forall_lt_succ_right, Nat.not_lt_zero] at hlow ⊢
    simpa using hlow
  have hout : inITBlock it = false := by simp [inITBlock, hnibble]
  have hne : it ≠ 0#8 := by
    rintro rfl
    exact hhigh rfl
  exact ⟨hout, by simp [currentCond, hout, hne]⟩

theorem condField_isSome (i : Instr) : (condField i).isSome = i.isA32 := by cases i <;> rfl

/-- Settles O14: R62's test passes outside an IT block, and CurrentCond gives no condition. -/
theorem reservedItStateRefused : Obligations.ReservedItStateRefused := by
  intro i s ha32 hhigh hlow
  obtain ⟨hout, hcond⟩ := currentCond_reserved hhigh hlow
  have hplace : itPlaceOk s.pstate.it i = true := by cases i <;> simp [itPlaceOk, hout]
  have hfield : condField i = none := by simpa [ha32] using condField_isSome i
  simp [exec_eq_subImmediate i s hplace, subImmediate, hfield, hcond]

/-! ## The saved PSTATE (R32) -/

@[simp] theorem ofBits_bits (m : Mode) : Mode.ofBits m.bits = some m := by cases m <;> rfl

/-- Every implemented encoding of a mode has M[4] = 1 (R31). -/
theorem getLsbD_four_bits (m : Mode) : m.bits.getLsbD 4 = true := by cases m <;> rfl

theorem psrOf_mode (par : Params) (p : Pstate) : (psrOf par p).extractLsb' 0 5 = p.m.bits :=
  BitVec.extractLsb'_append_eq_right

/-- A bit is the field of one bit at its place. -/
theorem getLsbD_of_field {w : Word} {k : Nat} {b : Bool} (h : w.extractLsb' k 1 = BitVec.ofBool b) :
    w.getLsbD k = b := by
  have hbit := (extract_eq_iff_bits w k (BitVec.ofBool b)).1 h 0 (by omega)
  simpa using hbit

/-- Settles O18: each field stands where the concatenation puts it, N at its left end and M at its right; M[4] is that
of a mode's encoding. -/
theorem savedPstateLayout : Obligations.SavedPstateLayout := by
  intro par p w
  have hn : w.extractLsb' 31 1 = BitVec.ofBool p.flags.n := by
    unfold w psrOf
    repeat rw [BitVec.extractLsb'_append_eq_of_le (by decide)]
    simp
  have hm : w.extractLsb' 0 5 = p.m.bits := psrOf_mode par p
  have hm4 : w.getLsbD 4 = true :=
    ((extract_eq_iff_bits w 0 p.m.bits).1 hm 4 (by omega)).trans (getLsbD_four_bits p.m)
  refine ⟨getLsbD_of_field hn, getLsbD_of_field ?_, getLsbD_of_field ?_, getLsbD_of_field ?_, getLsbD_of_field ?_, ?_,
    getLsbD_of_field ?_, getLsbD_of_field ?_, getLsbD_of_field ?_, getLsbD_of_field ?_, getLsbD_of_field ?_, ?_, ?_,
    getLsbD_of_field ?_, getLsbD_of_field ?_, getLsbD_of_field ?_, getLsbD_of_field ?_, getLsbD_of_field ?_, hm4,
    hm ▸ ofBits_bits p.m⟩ <;>
  · unfold w psrOf
    repeat rw [BitVec.extractLsb'_append_eq_of_le (by decide)]
    exact BitVec.extractLsb'_append_eq_right

/-! ## Reset (R35, R120) -/

/-- Settles O42: the program text is empty, and the other conditions are tests on the reset values. -/
theorem resetMeetsInvariant : Obligations.ResetMeetsInvariant := by
  refine ⟨⟨reset_mem_wf, ?_, ?_, ?_, ?_, ?_⟩, ?_⟩ <;> decide

/-- Settles O52: the reset values themselves. -/
theorem resetValues : Obligations.ResetValues :=
  ⟨rfl, rfl, rfl, rfl, rfl, rfl, rfl, rfl, rfl, fun _ => rfl⟩

end Sys2Proof.Machine
end

section
/-! SUPPORT. What every step keeps (R28, R31, R40, R43, R48, R120): the parts of the state no instruction writes, an
implemented mode, and the conditions on T, IT and the PC under which an instruction may execute. -/

namespace Sys2Proof.Machine

/-! ## What no step writes (R4, R41, R48) -/

/-- The program text, the parameters, the system registers and ELR_hyp are the same in both states. -/
structure SameConstants (s t : State) : Prop where
  mem : t.mem = s.mem
  par : t.par = s.par
  sys : t.sys = s.sys
  elrHyp : t.elrHyp = s.elrHyp

theorem Effect.sameConstants {x : Decoded} {s t : State} (h : Effect x s t) : SameConstants s t := by
  cases h with
  | passed _ ht => exact ht ▸ ⟨rfl, rfl, rfl, rfl⟩
  | wrote _ _ _ ht =>
    rw [ht, completed_eq, writeResult_eq]
    exact ⟨rfl, rfl, rfl, rfl⟩
  | branched _ _ _ ht =>
    rw [aluWritePC_next_eq ht]
    exact ⟨rfl, rfl, rfl, rfl⟩
  | returned _ _ _ _ _ _ _ _ _ ht => exact ht ▸ ⟨rfl, rfl, rfl, rfl⟩
  | entered _ _ _ _ _ _ _ ht => exact ht ▸ ⟨rfl, rfl, rfl, rfl⟩

theorem step_sameConstants {s t : State} (h : step s = .next t) : SameConstants s t := by
  obtain ⟨_, _, _, rfl⟩ | ⟨_, _, _, _, _, _, hexec⟩ := step_next h
  · exact ⟨rfl, rfl, rfl, rfl⟩
  · exact (exec_next hexec).sameConstants

/-- Settles O44: no effect of an instruction and no exception entry writes them. -/
theorem stepKeepsProgramText : Obligations.StepKeepsProgramText := fun _ _ hstep =>
  let ⟨hmem, hpar, hsys, helr⟩ := step_sameConstants hstep
  ⟨fun a => by rw [hmem], hmem, hpar, hsys, helr⟩

/-! ## The mode (R31, R104, R107) -/

/-- A legal return is to an implemented mode; an illegal one keeps the mode. -/
theorem implemented_returnState {s : State} {legal : Bool} {spsr : Word} (a : Word)
    (hl : legalReturn s spsr = legal) (hm : s.pstate.m.implemented s.par = true) :
    (returnState legal a spsr s).pstate.m.implemented s.par = true := by
  cases legal with
  | true =>
    obtain ⟨m, hbits, himpl⟩ := legalReturn_mode s spsr hl
    simp [returnState, setPstateFromPSR, hbits, himpl]
  | false => exact hm

theorem Effect.implemented {x : Decoded} {s t : State} (h : Effect x s t)
    (hm : s.pstate.m.implemented s.par = true) : t.pstate.m.implemented s.par = true := by
  cases h with
  | passed _ ht => exact ht ▸ hm
  | wrote _ _ _ ht =>
    rw [ht, completed_eq, writeResult_eq]
    exact hm
  | branched _ _ _ ht =>
    rw [aluWritePC_next_eq ht]
    exact hm
  | returned _ _ _ _ _ _ _ hl _ ht => exact ht ▸ implemented_returnState _ hl hm
  | entered _ _ _ _ _ _ _ ht => exact ht ▸ rfl

theorem step_implemented {s t : State} (h : step s = .next t) (hm : s.pstate.m.implemented s.par = true) :
    t.pstate.m.implemented s.par = true := by
  obtain ⟨_, _, _, rfl⟩ | ⟨_, _, _, _, _, _, hexec⟩ := step_next h
  · rfl
  · exact (exec_next hexec).implemented hm

/-! ## T, IT and the PC (R28, R43, R120) -/

/-- R120's conditions on T, IT and the PC, which `Inv` asks for where IL = 0. -/
structure Executable (s : State) : Prop where
  itA32 : s.pstate.t = false → s.pstate.it = 0#8
  pcT32 : s.pstate.t = true → s.pc.getLsbD 0 = false
  itKind : itReserved s.pstate.it = false

theorem inv_iff {s : State} : Inv s ↔
    s.mem.wf = true ∧ s.pstate.m.implemented s.par = true ∧ s.sys.vbar.extractLsb' 0 2 = 0#2 ∧
      (s.pstate.il = false → Executable s) :=
  ⟨fun ⟨hmem, hmode, hvbar, hit, hpc, hkind⟩ => ⟨hmem, hmode, hvbar, fun hil => ⟨hit hil, hpc hil, hkind hil⟩⟩,
    fun ⟨hmem, hmode, hvbar, h⟩ =>
      ⟨hmem, hmode, hvbar, fun hil => (h hil).itA32, fun hil => (h hil).pcT32, fun hil => (h hil).itKind⟩⟩

/-- The advance leaves 0 or a state with a bit of IT[3:0] set (R28). -/
theorem itReserved_itAdvance (it : BitVec 8) : itReserved (itAdvance it) = false := by
  by_cases hclear : it.extractLsb' 0 3 = 0b000#3
  · rw [itAdvance_of_clear hclear]
    rfl
  · have hlow : (itAdvance it).extractLsb' 0 4 ≠ 0#4 := by
      intro h
      apply hclear
      rw [itAdvance_of_not_clear hclear] at h
      simp only [extract_eq_iff_bits, Nat.forall_lt_succ_right, Nat.not_lt_zero, BitVec.getLsbD_append] at h ⊢
      simpa using h
    simp [itReserved, hlow]

theorem itReserved_itAfter (x : Decoded) {it : BitVec 8} (h : itReserved it = false) :
    itReserved (itAfter x it) = false := by
  unfold itAfter
  split
  · exact itReserved_itAdvance it
  · exact h

@[simp] theorem itAfter_zero (x : Decoded) : itAfter x 0#8 = 0#8 := by simp [itAfter]

theorem getLsbD_zero_alignT32 (a : Word) : (alignT32 a).getLsbD 0 = false := by
  simp [alignT32_eq_and]

/-- Every length is even (R50). -/
theorem getLsbD_zero_add_length (a : Word) (i : Instr) :
    (a + BitVec.ofNat 32 i.length).getLsbD 0 = a.getLsbD 0 := by
  have hlen : i.length = 2 ∨ i.length = 4 := by cases i <;> simp [Instr.length]
  obtain h | h := hlen <;> simp [h, BitVec.getElem_add]

/-! ## What the decoder answers in T32 (R30, R50) -/

theorem isA32_of_decodeT16 {hw : Half} {i : Instr} (h : decodeT16 hw = .ok i) : i.isA32 = false := by
  unfold decodeT16 at h
  split_ifs at h <;> cases h <;> rfl

theorem isA32_of_decodeT32 {w : Word} {i : Instr} (h : decodeT32 w = .ok i) : i.isA32 = false := by
  simp only [decodeT32] at h
  split at h
  · unfold decodeT3 at h
    split_ifs at h <;> cases h <;> rfl
  · split at h
    · unfold decodeT4 at h
      split_ifs at h
      cases h
      rfl
    · split at h
      · unfold decodeT5 at h
        split_ifs at h
        cases h
        rfl
      · cases h

theorem isA32_of_decode_t32 {bytes rest : List Byte} {i : Instr} (h : decode true bytes = .ok (i, rest)) :
    i.isA32 = false := by
  change decodeT32Bytes bytes = .ok (i, rest) at h
  unfold decodeT32Bytes at h
  split at h
  · split at h
    · split at h
      · split at h
        · cases h
        · rename_i hw
          cases h
          exact isA32_of_decodeT32 hw
      · cases h
    · split at h
      · cases h
      · rename_i hhw
        cases h
        exact isA32_of_decodeT16 hhw
  · cases h

/-- An A32 instruction comes from the A32 decoder. -/
theorem t32_eq_false_of_isA32 {t32 : Bool} {bytes rest : List Byte} {i : Instr}
    (h : decode t32 bytes = .ok (i, rest)) (ha32 : i.isA32 = true) : t32 = false := by
  cases t32 with
  | false => rfl
  | true => cases ha32.symm.trans (isA32_of_decode_t32 h)

/-! ## Each way a step sets T, IT and the PC -/

theorem Executable.completed {i : Instr} {x : Decoded} {s : State} (hlen : x.len = i.length) (h : Executable s) :
    Executable (completed x s) := by
  rw [completed_eq]
  refine ⟨fun ht => ?_, fun ht => ?_, itReserved_itAfter x h.itKind⟩
  · simp [h.itA32 ht]
  · rw [hlen, getLsbD_zero_add_length]
    exact h.pcT32 ht

theorem Executable.writeResult (x : Decoded) (v : Word) (f : Nzcv) {s : State} (h : Executable s) :
    Executable (writeResult x v f s) := by
  rw [writeResult_eq]
  exact ⟨h.itA32, h.pcT32, h.itKind⟩

/-- A branch to T32 clears bit 0 of its target; one to A32 comes from A32, where IT is 0 (R90 to R92). -/
theorem Executable.aluWritePC {x : Decoded} {a : Word} {s t : State} (hset : x.isA32 = true → s.pstate.t = false)
    (h : Executable s) (hb : aluWritePC x a s = .next t) : Executable t := by
  unfold Machine.aluWritePC at hb
  split at hb
  · rename_i ha32
    have hit : s.pstate.it = 0#8 := h.itA32 (hset ha32)
    obtain ⟨_, rfl⟩ | ⟨_, _, rfl⟩ | ⟨_, _, _, rfl⟩ | ⟨_, _, _, rfl⟩ := bxWritePC_next.1 hb
    · exact ⟨fun _ => hit, fun _ => getLsbD_zero_alignT32 a, h.itKind⟩
    all_goals exact ⟨fun _ => hit, fun ht => absurd ht Bool.false_ne_true, h.itKind⟩
  · cases hb
    refine ⟨fun ht => ?_, fun ht => ?_, itReserved_itAfter x h.itKind⟩
    · simp [h.itA32 ht]
    · rw [setPc_pstate] at ht
      rw [setPc_pc, if_pos ht]
      exact getLsbD_zero_alignT32 a

/-- RestoredIT is never a reserved IT state (R103). -/
theorem itReserved_restoredIT (itd t : Bool) (it : BitVec 8) : itReserved (restoredIT itd t it) = false := by
  unfold restoredIT
  split_ifs with hreserved
  · rfl
  · rfl
  · rfl
  · simpa using hreserved

/-- An exception return that leaves IL = 0 restores T, IT and the PC to fit each other (R102, R103). -/
theorem executable_returnState {legal : Bool} {a spsr : Word} {s : State}
    (hil : (returnState legal a spsr s).pstate.il = false) : Executable (returnState legal a spsr s) := by
  have leaves := returnState_leaves s legal a spsr
  refine ⟨leaves.itA32 hil, fun ht => ?_, ?_⟩
  · rw [leaves.pcT32 hil ht, ← alignT32_eq_and]
    exact getLsbD_zero_alignT32 a
  · simp only [returnState, setPstateFromPSR] at hil ⊢
    rw [hil]
    exact itReserved_restoredIT _ _ _

/-- The exception entry clears IT, and the vector is even where VBAR is word-aligned (R107). -/
theorem executable_enterUndefinedMode (isA32 : Bool) {s : State} (h : s.sys.vbar.extractLsb' 0 2 = 0#2) :
    Executable (enterUndefinedMode isA32 s) := by
  have hlow : (enterUndefinedMode isA32 s).pc.extractLsb' 0 2 = 0#2 := lowBits_add_four (lowBits_vectorBase h)
  exact ⟨fun _ => rfl, fun _ => ((and_three _ false false).1 ((and_three_eq_zero _).2 hlow)).2,
    (rfl : itReserved 0#8 = false)⟩

/-- Every instruction leaves T, IT and the PC fit for the next one, if IL is 0. -/
theorem executable_of_exec {i : Instr} {s t : State} (hexec : exec i s = .next t)
    (hset : i.isA32 = true → s.pstate.t = false) (hvbar : s.sys.vbar.extractLsb' 0 2 = 0#2) (h : Executable s)
    (hil : t.pstate.il = false) : Executable t := by
  cases exec_next hexec with
  | passed _ ht => exact ht ▸ h.completed (decodedOf_len s i)
  | wrote _ _ _ ht => exact ht ▸ (h.writeResult _ _ _).completed (decodedOf_len s i)
  | branched _ _ _ ht => exact h.aluWritePC (by rwa [decodedOf_isA32]) ht
  | returned _ _ _ _ _ _ _ _ _ ht =>
    subst ht
    exact executable_returnState hil
  | entered _ _ _ _ _ _ _ ht => exact ht ▸ executable_enterUndefinedMode _ hvbar

/-- Settles O41: the program text and VBAR are constants, the mode stays implemented, and the exception entry as well as
every effect of an instruction leaves T, IT and the PC fit for the next one. -/
theorem stepKeepsInvariant : Obligations.StepKeepsInvariant := by
  intro s t hinv hstep
  obtain ⟨hmem, hmode, hvbar, hexecutable⟩ := inv_iff.1 hinv
  obtain ⟨hmem', hpar', hsys', _⟩ := step_sameConstants hstep
  have himpl : t.pstate.m.implemented t.par = true := hpar' ▸ step_implemented hstep hmode
  refine inv_iff.2 ⟨hmem' ▸ hmem, himpl, hsys' ▸ hvbar, fun hil => ?_⟩
  obtain ⟨_, _, _, rfl⟩ | ⟨hil0, _, _, _, _, hdec, hexec⟩ := step_next hstep
  · exact executable_enterUndefinedMode _ hvbar
  · exact executable_of_exec hexec (t32_eq_false_of_isA32 hdec) hvbar (hexecutable hil0) hil

end Sys2Proof.Machine
end

section
/-! SUPPORT. The step on an encoded instruction that stands at the PC (R42, R44, R50): the decoder reads the encoder's
bytes back, and the fetch gives just the bytes the decoder takes. -/

namespace Sys2Proof

/-! ## The fixed bits that tell the encodings apart (R53, R55, R56) -/

/-- A field inside a known field. -/
theorem extract_of_extract {n lo len : Nat} {w : BitVec n} {v : BitVec len} (h : w.extractLsb' lo len = v)
    (lo' len' : Nat) (hle : lo' + len' ≤ len) : w.extractLsb' (lo + lo') len' = v.extractLsb' lo' len' := by
  rw [← extract_extract w lo len lo' len' hle, h]

theorem encT2_not_t1 (rdn : BitVec 3) (imm8 : BitVec 8) : (encT2 rdn imm8).extractLsb' 9 7 ≠ 0b0001111#7 := fun h =>
  absurd ((extract_of_extract h 2 5 (by decide)).symm.trans (encT2_op rdn imm8)) (by decide)

@[simp] theorem encT4_not_t3 (i : BitVec 1) (rn : RegNum) (imm3 : BitVec 3) (rd : RegNum) (imm8 : BitVec 8) :
    (encT4 i rn imm3 rd imm8).extractLsb' 21 5 = 0b10101#5 :=
  extract_of_extract (encT4_op i rn imm3 rd imm8) 1 5 (by decide)

section
variable (rn : RegNum) (imm8 : BitVec 8)

@[simp] theorem encT5_bit15 : (encT5 rn imm8).extractLsb' 15 1 = 1#1 :=
  extract_of_extract (encT5_low rn imm8) 7 1 (by decide)

@[simp] theorem encT5_bits15_14 : (encT5 rn imm8).extractLsb' 14 2 = 0b10#2 :=
  extract_of_extract (encT5_low rn imm8) 6 2 (by decide)

@[simp] theorem encT5_sbz : (encT5 rn imm8).extractLsb' 13 1 = 0#1 :=
  extract_of_extract (encT5_low rn imm8) 5 1 (by decide)

@[simp] theorem encT5_bit12 : (encT5 rn imm8).extractLsb' 12 1 = 0#1 :=
  extract_of_extract (encT5_low rn imm8) 4 1 (by decide)

@[simp] theorem encT5_sbo : (encT5 rn imm8).extractLsb' 8 4 = 0b1111#4 :=
  extract_of_extract (encT5_low rn imm8) 0 4 (by decide)

end

/-! ## The decoder on the encoder's bits (R51 to R65) -/

theorem decodeA32_encodeBits {i : Instr} (ha32 : i.isA32 = true) (hw : i.wf = true) :
    decodeA32 (encodeBits i) = .ok i := by
  cases i with
  | subA1 | subsA1 => simp_all [Instr.wf, encodeBits, decodeA32]
  | _ => cases ha32

theorem decodeT16_encT1 (imm3 rn rd : BitVec 3) : decodeT16 (encT1 imm3 rn rd) = .ok (.subT1 imm3 rn rd) := by
  simp [decodeT16]

theorem decodeT16_encT2 (rdn : BitVec 3) (imm8 : BitVec 8) : decodeT16 (encT2 rdn imm8) = .ok (.subT2 rdn imm8) := by
  simp [decodeT16, encT2_not_t1]

theorem decodeT32_encodeBits {i : Instr} (ha32 : i.isA32 = false) (hlen : i.length = 4) (hw : i.wf = true) :
    decodeT32 (encodeBits i) = .ok i := by
  cases i with
  | subT3 | subsT3 => simp_all [Instr.wf, encodeBits, decodeT32, decodeT3]
  | subwT4 => simp_all [Instr.wf, encodeBits, decodeT32, decodeT4]
  | subsPcLrT5 => simp_all [Instr.wf, encodeBits, decodeT32, decodeT5]
  | subT1 | subT2 => cases hlen
  | subA1 | subsA1 => cases ha32

/-- The first halfword of a T3, T4 or T5 opens a 32-bit instruction (R66). -/
theorem encodeBits_opens_long {i : Instr} (ha32 : i.isA32 = false) (hlen : i.length = 4) :
    (encodeBits i).extractLsb' 27 5 = 0b11110#5 := by
  cases i with
  | subT3 i rn imm3 rd imm8 => exact encT3_prefix 0#1 i rn imm3 rd imm8
  | subsT3 i rn imm3 rd imm8 => exact encT3_prefix 1#1 i rn imm3 rd imm8
  | subwT4 i rn imm3 rd imm8 => exact encT4_prefix i rn imm3 rd imm8
  | subsPcLrT5 rn imm8 => exact extract_of_extract (encT5_op rn imm8) 7 5 (by decide)
  | subT1 | subT2 => cases hlen
  | subA1 | subsA1 => cases ha32

/-! ## The decoder on the encoder's bytes (R42, R50) -/

theorem decodeA32Bytes_wordBytes {w : Word} {i : Instr} (rest : List Byte) (h : decodeA32 w = .ok i) :
    decodeA32Bytes (wordBytes w ++ rest) = .ok (i, rest) := by
  simp only [wordBytes, List.cons_append, List.nil_append, decodeA32Bytes, wordOf_extract, h]

theorem decodeT32Bytes_halfBytes {hw : Half} {i : Instr} (rest : List Byte) (hshort : isT32Long hw = false)
    (h : decodeT16 hw = .ok i) : decodeT32Bytes (halfBytes hw ++ rest) = .ok (i, rest) := by
  simp only [halfBytes, List.cons_append, List.nil_append, decodeT32Bytes, halfOf_extract, hshort, h,
    Bool.false_eq_true, if_false]

/-- A T1 or T2 opens no 32-bit instruction (R66). -/
theorem isT32Long_encT1 (imm3 rn rd : BitVec 3) : isT32Long (encT1 imm3 rn rd) = false := by
  have h : (encT1 imm3 rn rd).extractLsb' 11 5 = 0b00011#5 := extract_of_extract (encT1_op imm3 rn rd) 2 5 (by decide)
  simp [isT32Long, h]

theorem isT32Long_encT2 (rdn : BitVec 3) (imm8 : BitVec 8) : isT32Long (encT2 rdn imm8) = false := by
  simp [isT32Long]

theorem encode_a32 {i : Instr} (ha32 : i.isA32 = true) : encode i = wordBytes (encodeBits i) := if_pos ha32

theorem encode_t32_long {i : Instr} (ha32 : i.isA32 = false) (hlen : i.length = 4) :
    encode i = pairBytes (encodeBits i) := by
  simp [encode, ha32, hlen]

theorem encode_subT1 (imm3 rn rd : BitVec 3) : encode (.subT1 imm3 rn rd) = halfBytes (encT1 imm3 rn rd) := by
  simp [encode, Instr.isA32, Instr.length, encodeBits]

theorem encode_subT2 (rdn : BitVec 3) (imm8 : BitVec 8) : encode (.subT2 rdn imm8) = halfBytes (encT2 rdn imm8) := by
  simp [encode, Instr.isA32, Instr.length, encodeBits]

/-- Decoding reads a well-formed instruction back from its bytes and leaves the bytes after it. -/
theorem decode_encode_append {i : Instr} (hw : i.wf = true) (rest : List Byte) :
    decode (!i.isA32) (encode i ++ rest) = .ok (i, rest) := by
  have t32Long (ha32 : i.isA32 = false) (hlen : i.length = 4) :
      decode (!i.isA32) (encode i ++ rest) = .ok (i, rest) := by
    rw [encode_t32_long ha32 hlen, ha32]
    exact decodeT32Bytes_pairBytes _ _ _ (encodeBits_opens_long ha32 hlen) (decodeT32_encodeBits ha32 hlen hw)
  have a32 (ha32 : i.isA32 = true) : decode (!i.isA32) (encode i ++ rest) = .ok (i, rest) := by
    rw [encode_a32 ha32, ha32]
    exact decodeA32Bytes_wordBytes rest (decodeA32_encodeBits ha32 hw)
  cases i with
  | subA1 | subsA1 => exact a32 rfl
  | subT3 | subsT3 | subwT4 | subsPcLrT5 => exact t32Long rfl rfl
  | subT1 imm3 rn rd =>
    rw [encode_subT1]
    exact decodeT32Bytes_halfBytes rest (isT32Long_encT1 imm3 rn rd) (decodeT16_encT1 imm3 rn rd)
  | subT2 rdn imm8 =>
    rw [encode_subT2]
    exact decodeT32Bytes_halfBytes rest (isT32Long_encT2 rdn imm8) (decodeT16_encT2 rdn imm8)

theorem length_encode : ∀ i : Instr, (encode i).length = i.length
  | .subA1 cond rn rd imm12 => Laws.EncodeLength.subA1 cond rn rd imm12
  | .subsA1 cond rn rd imm12 => Laws.EncodeLength.subsA1 cond rn rd imm12
  | .subT1 imm3 rn rd => Laws.EncodeLength.subT1 imm3 rn rd
  | .subT2 rdn imm8 => Laws.EncodeLength.subT2 rdn imm8
  | .subT3 i rn imm3 rd imm8 => Laws.EncodeLength.subT3 i rn imm3 rd imm8
  | .subsT3 i rn imm3 rd imm8 => Laws.EncodeLength.subsT3 i rn imm3 rd imm8
  | .subwT4 i rn imm3 rd imm8 => Laws.EncodeLength.subwT4 i rn imm3 rd imm8
  | .subsPcLrT5 rn imm8 => Laws.EncodeLength.subsPcLrT5 rn imm8

end Sys2Proof

namespace Sys2Proof.Machine

/-! ## The fetch of what the decoder takes (R44) -/

section
variable {s : State} {bytes : List Byte} {i : Instr}

theorem fetchA32_of_decode (hdec : decodeA32Bytes bytes = .ok (i, []))
    (hread : ∀ k, k < bytes.length → s.mem.read (s.pc.toNat + k) = bytes[k]?) : fetchA32 s = .next bytes := by
  unfold decodeA32Bytes at hdec
  split at hdec
  · split at hdec
    · cases hdec
    · cases hdec
      have h0 := hread 0 (by simp)
      have h1 := hread 1 (by simp)
      have h2 := hread 2 (by simp)
      have h3 := hread 3 (by simp)
      simp_all [fetchA32]
  · cases hdec

/-- The decoder asks for a second halfword just where the fetch does (R66). -/
theorem fetchT32_of_decode (hdec : decodeT32Bytes bytes = .ok (i, []))
    (hread : ∀ k, k < bytes.length → s.mem.read (s.pc.toNat + k) = bytes[k]?) : fetchT32 s = .next bytes := by
  unfold decodeT32Bytes at hdec
  split at hdec
  · have h0 := hread 0 (by simp)
    have h1 := hread 1 (by simp)
    split at hdec
    · split at hdec
      · split at hdec
        · cases hdec
        · cases hdec
          have h2 := hread 2 (by simp)
          have h3 := hread 3 (by simp)
          simp_all [fetchT32]
      · cases hdec
    · split at hdec
      · cases hdec
      · cases hdec
        simp_all [fetchT32]
  · cases hdec

end

/-- Settles O39: the decoder reads the instruction back from its bytes, which are those the fetch gives. -/
theorem stepRunsInstructionAtPc : Obligations.StepRunsInstructionAtPc := by
  intro s i hw hil ht hpc hread
  have hdec : decode (!i.isA32) (encode i) = .ok (i, []) := by simpa using decode_encode_append hw []
  rw [← length_encode i] at hread
  have hfetch : fetch s = .next (encode i) := by
    cases ha32 : i.isA32 with
    | true =>
      simp only [ha32, if_true, Bool.not_true] at hdec hpc ht
      exact (fetch_a32_aligned ht hpc).trans (fetchA32_of_decode hdec hread)
    | false =>
      simp only [ha32, if_false, Bool.false_eq_true, Bool.not_false] at hdec hpc ht
      exact (fetch_t32_even ht hpc).trans (fetchT32_of_decode hdec hread)
  exact step_of_decode_ok hfetch hil (ht ▸ hdec)

end Sys2Proof.Machine
end

section
/-! SUPPORT. The decoder by the masks and matches of the opcode table (R51 to R56, R61 to R65), and the encoder as its
inverse: the statements on encoding, with R62's refusal of T5 inside an IT block. -/

namespace Sys2Proof

/-! ## One-bit fields -/

theorem extract_one_eq_ofBool {n : Nat} (w : BitVec n) (k : Nat) :
    w.extractLsb' k 1 = BitVec.ofBool (w.getLsbD k) := by
  simp [extract_eq_iff_bits]

theorem extract_one_of_getLsbD {n k : Nat} {w : BitVec n} {b : Bool} (h : w.getLsbD k = b) :
    w.extractLsb' k 1 = BitVec.ofBool b :=
  h ▸ extract_one_eq_ofBool w k

theorem ofBool_beq_one (b : Bool) : (BitVec.ofBool b == 1#1) = b := by cases b <;> rfl

/-! ## Which decode a T32 pair takes (R54 to R56, R65) -/

section
variable {w : Word}

theorem decodeT32_of_maskT3 (h : w &&& 0xFBE08000#32 = 0xF1A00000#32) :
    decodeT32 w = decodeT3 (w.getLsbD 20) (w.extractLsb' 26 1) (w.extractLsb' 16 4) (w.extractLsb' 12 3)
      (w.extractLsb' 8 4) (w.extractLsb' 0 8) := by
  simp only [decodeT32, if_pos ((maskT3 w).1 h), extract_one_eq_ofBool w 20, ofBool_beq_one]

/-- Bits 25:21 tell T4 from T3. -/
theorem decodeT32_of_maskT4 (h : w &&& 0xFBF08000#32 = 0xF2A00000#32) :
    decodeT32 w = decodeT4 (w.extractLsb' 26 1) (w.extractLsb' 16 4) (w.extractLsb' 12 3) (w.extractLsb' 8 4)
      (w.extractLsb' 0 8) := by
  obtain ⟨hprefix, hop, hzero⟩ := (maskT4 w).1 h
  have hop3 : w.extractLsb' 21 5 = 0b10101#5 := extract_of_extract hop 1 5 (by decide)
  exact (if_neg (by simp [hop3])).trans (if_pos ⟨hprefix, hop, hzero⟩)

/-- Bit 15 tells T5 from T3 and T4. -/
theorem decodeT32_of_maskT5 (h : w &&& 0xFFF0D000#32 = 0xF3D08000#32) :
    decodeT32 w = decodeT5 (w.extractLsb' 16 4) (w.extractLsb' 13 1) (w.extractLsb' 8 4) (w.extractLsb' 0 8) := by
  obtain ⟨hop, h15, h12⟩ := (maskT5 w).1 h
  have hbit15 : w.extractLsb' 15 1 = 1#1 := extract_of_extract h15 1 1 (by decide)
  exact (if_neg (by simp [hbit15])).trans ((if_neg (by simp [hbit15])).trans (if_pos ⟨hop, h15, h12⟩))

theorem decodeT32_of_noMask (h3 : ¬(w &&& 0xFBE08000#32 = 0xF1A00000#32))
    (h4 : ¬(w &&& 0xFBF08000#32 = 0xF2A00000#32)) (h5 : ¬(w &&& 0xFFF0D000#32 = 0xF3D08000#32)) :
    decodeT32 w = .error (.notThisInstruction .noMatch) := by
  rw [maskT3] at h3
  rw [maskT4] at h4
  rw [maskT5] at h5
  exact (if_neg h3).trans ((if_neg h4).trans (if_neg h5))

end

/-! ## The encoder on what the decoder accepts (R51 to R56) -/

theorem wf_encode_of_decodeA32 {w : Word} {i : Instr} (h : decodeA32 w = .ok i) :
    i.wf = true ∧ i.isA32 = true ∧ encode i = wordBytes w := by
  simp only [decodeA32] at h
  split at h
  next hmatch =>
    have hword := encA1_of_fields w hmatch.1
    split at h
    next hs =>
      rw [hs] at hword
      split_ifs at h with hpc hsp
      cases h
      exact ⟨by simp [Instr.wf, hmatch.2, hpc, hsp], rfl, congrArg wordBytes hword⟩
    next hs =>
      rw [(BitVec.eq_zero_or_eq_one _).resolve_left hs] at hword
      split_ifs at h with hsp
      cases h
      exact ⟨by simp [Instr.wf, hmatch.2, hsp], rfl, congrArg wordBytes hword⟩
  next => cases h

theorem wf_encode_of_decodeT16 {hw : Half} {i : Instr} (h : decodeT16 hw = .ok i) :
    i.wf = true ∧ encode i = halfBytes hw := by
  unfold decodeT16 at h
  split_ifs at h with h1 h2
  · cases h
    exact ⟨rfl, by rw [encode_subT1, encT1_of_fields hw h1]⟩
  · cases h
    exact ⟨rfl, by rw [encode_subT2, encT2_of_fields hw h2]⟩

section
variable {i : BitVec 1} {rn rd : RegNum} {imm3 : BitVec 3} {imm8 : BitVec 8} {x : Instr}

theorem wf_encode_of_decodeT3 {s : Bool} (h : decodeT3 s i rn imm3 rd imm8 = .ok x) :
    x.wf = true ∧ encode x = pairBytes (encT3 (BitVec.ofBool s) i rn imm3 rd imm8) := by
  unfold decodeT3 at h
  split_ifs at h with _ hsp hzero hpc hn hs <;> cases h
  · exact ⟨by simp [Instr.wf, hsp, hzero, hpc, hn], by rw [hs]; rfl⟩
  · exact ⟨by simp [Instr.wf, hsp, hzero, hpc, hn], by rw [Bool.eq_false_of_not_eq_true hs]; rfl⟩

theorem wf_encode_of_decodeT4 (h : decodeT4 i rn imm3 rd imm8 = .ok x) :
    x.wf = true ∧ encode x = pairBytes (encT4 i rn imm3 rd imm8) := by
  unfold decodeT4 at h
  split_ifs at h with hn hsp hpc
  cases h
  exact ⟨by simp [Instr.wf, hn, hsp, hpc], rfl⟩

/-- What T5 accepts has the should-be bits at their values (R63). -/
theorem wf_encode_of_decodeT5 {sbz : BitVec 1} {sbo : BitVec 4} (h : decodeT5 rn sbz sbo imm8 = .ok x) :
    x.wf = true ∧ encode x = pairBytes (encT5 rn imm8) ∧ sbz = 0#1 ∧ sbo = 0b1111#4 := by
  unfold decodeT5 at h
  split_ifs at h with heret hsb hn
  cases h
  push Not at heret hsb hn
  exact ⟨by simp [Instr.wf, hn, heret hn], rfl, hsb⟩

end

/-- Bits 15:8 of a T5 pair from the fixed and the should-be bits. -/
theorem encT5_low_of_fields {w : Word} (h15 : w.extractLsb' 14 2 = 0b10#2) (h13 : w.extractLsb' 13 1 = 0#1)
    (h12 : w.extractLsb' 12 1 = 0#1) (h8 : w.extractLsb' 8 4 = 0b1111#4) : w.extractLsb' 8 8 = 0b10001111#8 := by
  calc w.extractLsb' 8 8
      = w.extractLsb' 14 2 ++ w.extractLsb' 13 1 ++ w.extractLsb' 12 1 ++ w.extractLsb' 8 4 := by
        rw [BitVec.extractLsb'_append_extractLsb'_eq_extractLsb' (by rfl),
          BitVec.extractLsb'_append_extractLsb'_eq_extractLsb' (by rfl),
          BitVec.extractLsb'_append_extractLsb'_eq_extractLsb' (by rfl)]
    _ = 0b10001111#8 := by
        rw [h15, h13, h12, h8]
        rfl

theorem wf_encode_of_decodeT32 {w : Word} {i : Instr} (h : decodeT32 w = .ok i) :
    i.wf = true ∧ encode i = pairBytes w := by
  by_cases h3 : w &&& 0xFBE08000#32 = 0xF1A00000#32
  · rw [decodeT32_of_maskT3 h3] at h
    obtain ⟨hprefix, hop, hzero⟩ := (maskT3 w).1 h3
    have hword := encT3_of_fields w hprefix hop hzero
    rw [extract_one_eq_ofBool w 20] at hword
    exact hword ▸ wf_encode_of_decodeT3 h
  by_cases h4 : w &&& 0xFBF08000#32 = 0xF2A00000#32
  · rw [decodeT32_of_maskT4 h4] at h
    obtain ⟨hprefix, hop, hzero⟩ := (maskT4 w).1 h4
    obtain ⟨hwf, henc⟩ := wf_encode_of_decodeT4 h
    exact ⟨hwf, henc.trans (congrArg pairBytes (encT4_of_fields w hprefix hop hzero))⟩
  by_cases h5 : w &&& 0xFFF0D000#32 = 0xF3D08000#32
  · rw [decodeT32_of_maskT5 h5] at h
    obtain ⟨hop, h15, h12⟩ := (maskT5 w).1 h5
    obtain ⟨hwf, henc, hsbz, hsbo⟩ := wf_encode_of_decodeT5 h
    have hword := encT5_of_fields w hop (encT5_low_of_fields h15 hsbz h12 hsbo)
    exact ⟨hwf, henc.trans (congrArg pairBytes hword)⟩
  · cases (decodeT32_of_noMask h3 h4 h5).symm.trans h

/-! ## The same on bytes (R42, R50, R66) -/

theorem wf_encode_of_decodeA32Bytes {bytes rest : List Byte} {i : Instr} (h : decodeA32Bytes bytes = .ok (i, rest)) :
    i.wf = true ∧ i.isA32 = true ∧ bytes = encode i ++ rest := by
  unfold decodeA32Bytes at h
  split at h
  next b0 b1 b2 b3 rest' =>
    split at h
    next => cases h
    next hdec =>
      cases h
      obtain ⟨hwf, ha32, henc⟩ := wf_encode_of_decodeA32 hdec
      exact ⟨hwf, ha32, by rw [henc, wordBytes_wordOf]; rfl⟩
  next => cases h

theorem wf_encode_of_decodeT32Bytes {bytes rest : List Byte} {i : Instr} (h : decodeT32Bytes bytes = .ok (i, rest)) :
    i.wf = true ∧ bytes = encode i ++ rest := by
  unfold decodeT32Bytes at h
  split at h
  next b0 b1 tail =>
    split at h
    next =>
      split at h
      next b2 b3 rest' =>
        split at h
        next => cases h
        next hdec =>
          cases h
          obtain ⟨hwf, henc⟩ := wf_encode_of_decodeT32 hdec
          exact ⟨hwf, by rw [henc, pairBytes_halves]; rfl⟩
      next => cases h
    next =>
      split at h
      next => cases h
      next hdec =>
        cases h
        obtain ⟨hwf, henc⟩ := wf_encode_of_decodeT16 hdec
        exact ⟨hwf, by rw [henc, halfBytes_halfOf]; rfl⟩
  next => cases h

/-- Settles O2, by the form of the instruction: each decoder reads its encoder's fields back. -/
theorem encodeThenDecode : Obligations.EncodeThenDecode := fun _ rest hw => decode_encode_append hw rest

/-- Settles O3: whatever word a decoder accepts is put together again from the fields it answers, and the fixed bits
it tested. -/
theorem decodeThenEncode : Obligations.DecodeThenEncode := by
  intro t32 bytes rest i h
  cases t32 with
  | false => exact wf_encode_of_decodeA32Bytes h
  | true =>
    obtain ⟨hwf, hbytes⟩ := wf_encode_of_decodeT32Bytes h
    exact ⟨hwf, Machine.isA32_of_decode_t32 h, hbytes⟩

/-! ## The decoder by mask and match -/

/-- Settles O4: the mask and match fix bits 27:21, and bit 20 names the variant. -/
theorem a32WordsDecodeByMask : Obligations.A32WordsDecodeByMask := by
  intro w
  rw [maskA1]
  refine ⟨fun hop => ?_, fun hcond => ?_, fun hop hcond =>
    ⟨fun hsp => ?_, fun hs hpc => ?_, fun hs hsp hpc => ?_, fun hs hsp => ?_⟩⟩
  · simp [decodeA32, hop]
  · simp [decodeA32, hcond]
  · simp [decodeA32, hop, hcond, hsp, regPC]
  · simp [decodeA32, hop, hcond, extract_one_of_getLsbD hs, hpc]
  · simp [decodeA32, hop, hcond, extract_one_of_getLsbD hs, hsp, hpc]
  · simp [decodeA32, hop, hcond, extract_one_of_getLsbD hs, hsp]

/-- Settles O5: bits 15:9 tell T1, bits 15:11 tell T2, and the two differ. -/
theorem t16HalfwordsDecodeByMask : Obligations.T16HalfwordsDecodeByMask := by
  intro hw
  rw [maskT1, maskT2]
  refine ⟨fun h1 => if_pos h1, fun h2 => ?_, fun h1 h2 => (if_neg h1).trans (if_neg h2)⟩
  have h1 : hw.extractLsb' 9 7 ≠ 0b0001111#7 := fun h1 =>
    absurd (h2.symm.trans (extract_of_extract h1 2 5 (by decide))) (by decide)
  exact (if_neg h1).trans (if_pos h2)

/-- R12's three replicated forms are those with bit 2 of `imm3` clear and a lower bit set. -/
theorem replicatedForm_iff (imm3 : BitVec 3) : ((imm3 = 1#3 ∨ imm3 = 2#3) ∨ imm3 = 3#3) ↔
    imm3.extractLsb' 2 1 = 0#1 ∧ imm3.extractLsb' 0 2 ≠ 0#2 := by
  decide +revert

/-- The masks of a replicated form of byte `00` (R12). -/
theorem maskZeroByte (w : Word) :
    (w &&& 0x04004000#32 = 0#32 ∧ w &&& 0x00003000#32 ≠ 0#32 ∧ w &&& 0x000000FF#32 = 0#32) ↔
      zeroByteImm (w.extractLsb' 26 1) (w.extractLsb' 12 3) (w.extractLsb' 0 8) = true := by
  have hform : w &&& 0x04004000#32 = 0#32 ↔ w.extractLsb' 26 1 = 0#1 ∧ w.extractLsb' 14 1 = 0#1 := by
    simp only [and_eq_iff_bits, extract_eq_iff_bits, Nat.forall_lt_succ_right, Nat.not_lt_zero]
    simp [and_comm]
  have hspread : w &&& 0x00003000#32 = 0#32 ↔ w.extractLsb' 12 2 = 0#2 := by
    simp only [and_eq_iff_bits, extract_eq_iff_bits, Nat.forall_lt_succ_right, Nat.not_lt_zero]
    simp
  have hbyte : w &&& 0x000000FF#32 = 0#32 ↔ w.extractLsb' 0 8 = 0#8 := by
    simp only [and_eq_iff_bits, extract_eq_iff_bits, Nat.forall_lt_succ_right, Nat.not_lt_zero]
    simp
  simp only [zeroByteImm, Bool.and_eq_true, Bool.or_eq_true, beq_iff_eq, replicatedForm_iff, extract_extract, hform,
    ne_eq, hspread, hbyte, Nat.reduceAdd, Nat.reduceLeDiff]
  tauto

/-- Settles O6: the tests of T3 in R111's order, each after those before it failed. -/
theorem t3WordsDecodeByMask : Obligations.T3WordsDecodeByMask := by
  intro w hmask
  dsimp only
  rw [decodeT32_of_maskT3 hmask, maskZeroByte]
  have notCmp (hcmp : w.extractLsb' 8 4 = 0b1111#4 → w.getLsbD 20 = false) :
      ¬(w.extractLsb' 8 4 = regPC ∧ w.getLsbD 20 = true) :=
    fun ⟨hd, hs⟩ => Bool.false_ne_true ((hcmp hd).symm.trans hs)
  refine ⟨fun hd hs => ?_, fun hn hcmp => ?_, fun hn hcmp hz => ?_, fun hn hz hd hs => ?_, fun hz hd hn => ?_,
    fun hz hd hsp hn => ?_⟩
  · rw [decodeT3, if_pos ⟨hd, hs⟩]
  · rw [decodeT3, if_neg (notCmp hcmp), if_pos hn]
  · rw [decodeT3, if_neg (notCmp hcmp), if_neg hn, if_pos hz]
  · rw [decodeT3, if_neg (notCmp fun _ => hs), if_neg hn, if_neg hz, if_pos hd]
  · rw [decodeT3, if_neg (notCmp (absurd · hd)), if_neg (hn.trans_ne (by decide)), if_neg hz, if_neg hd, if_pos hn]
  · rw [decodeT3, if_neg (notCmp (absurd · hd)), if_neg hsp, if_neg hz, if_neg hd, if_neg hn, apply_ite Except.ok]

/-- The mask and match of T5's should-be bits (R63). -/
theorem maskT5ShouldBe (w : Word) : w &&& 0x00002F00#32 = 0x00000F00#32 ↔
    w.extractLsb' 13 1 = 0#1 ∧ w.extractLsb' 8 4 = 0b1111#4 := by
  simp only [and_eq_iff_bits, extract_eq_iff_bits, Nat.forall_lt_succ_right, Nat.not_lt_zero]
  simp
  tauto

/-- Settles O7: the tests of T4 and of T5 in R111's order, and no match where the three masks fail. -/
theorem t4T5WordsDecodeByMask : Obligations.T4T5WordsDecodeByMask := by
  intro w
  dsimp only
  refine ⟨fun h4 => ?_, fun h5 => ?_, decodeT32_of_noMask⟩
  · rw [decodeT32_of_maskT4 h4]
    refine ⟨fun hpc => ?_, fun hsp => ?_, fun hpc hsp hd => ?_, fun hpc hsp hd => ?_⟩
    · rw [decodeT4, if_pos hpc]
    · rw [decodeT4, if_neg (hsp.trans_ne (by decide)), if_pos hsp]
    · rw [decodeT4, if_neg hpc, if_neg hsp, if_pos hd]
    · rw [decodeT4, if_neg hpc, if_neg hsp, if_neg hd]
  · rw [decodeT32_of_maskT5 h5, ne_eq (w &&& 0x00002F00#32), maskT5ShouldBe]
    refine ⟨fun hn himm => ?_, fun heret hsb => ?_, fun hn hsb => ?_, fun hn himm hsb => ?_⟩
    · rw [decodeT5, if_pos ⟨hn, himm⟩]
    · rw [decodeT5, if_neg heret, if_pos (not_and_or.1 hsb)]
    · rw [decodeT5, if_neg (hn ·.1), if_neg (not_and_or.2 · hsb), if_pos hn]
    · rw [decodeT5, if_neg (himm ·.2), if_neg (not_and_or.2 · hsb), if_neg (not_not_intro hn)]

/-- Settles O1: the decoder evaluated on each word. -/
theorem writtenWordsDecode : Obligations.WrittenWordsDecode := by
  unfold Obligations.WrittenWordsDecode
  decide

/-- Settles O15: R62's test on the IT state comes before the condition. -/
theorem subsPcLrNotLastInItRefused : Obligations.SubsPcLrNotLastInItRefused := fun rn imm8 s hin hlast =>
  Machine.exec_of_itPlaceOk_false (i := .subsPcLrT5 rn imm8) (by simp [Machine.itPlaceOk, hin, hlast])

end Sys2Proof
end

section
/-! SUPPORT. What each encoding leaves (R70 to R82): the subtraction and its flags in closed form, one lemma for every
instruction that completes with a result, one for every legal exception return, and the form each obligation states. -/

namespace Sys2Proof.Machine

/-! ## The subtraction (R71) -/

/-- The exact signed difference leaves the signed range when the operands' signs differ and the result's sign is not
the first operand's. -/
theorem subFlags_v_iff_signs (x y : Word) :
    (subFlags x y).v = true ↔ x.getLsbD 31 ≠ y.getLsbD 31 ∧ (x - y).getLsbD 31 ≠ x.getLsbD 31 := by
  have hover : (subFlags x y).v = x.ssubOverflow y := by
    rw [Bool.eq_iff_iff]
    simp only [subFlags, BitVec.ssubOverflow, Bool.or_eq_true, decide_eq_true_iff]
    omega
  rw [hover, BitVec.ssubOverflow_eq]
  simp only [BitVec.msb_eq_getLsbD_last]
  cases x.getLsbD 31 <;> cases y.getLsbD 31 <;> cases (x - y).getLsbD 31 <;> decide

theorem getLsbD_31_of_lt {y : Word} (h : y.toNat < 2 ^ 31) : y.getLsbD 31 = false :=
  Nat.testBit_lt_two_pow h

theorem sub_zero_flags (x : Word) : (subFlags x 0#32).c = true ∧ (subFlags x 0#32).v = false := by
  have hlow := x.le_toInt
  have hhigh := x.toInt_lt
  simp only [subFlags, BitVec.toInt_zero, decide_eq_true_iff, decide_eq_false_iff_not]
  exact ⟨Nat.zero_le _, by omega⟩

theorem sub_self_flags (x : Word) : subFlags x x = ⟨false, true, true, false⟩ := by
  simp [subFlags]

/-- A zero-extended field of at most 31 bits. -/
theorem toNat_setWidth_lt {n : Nat} (v : BitVec n) (h : n ≤ 31) : (v.setWidth 32).toNat < 2 ^ 31 := by
  rw [BitVec.toNat_setWidth]
  calc v.toNat % 2 ^ 32 ≤ v.toNat := Nat.mod_le ..
    _ < 2 ^ n := v.isLt
    _ ≤ 2 ^ 31 := Nat.pow_le_pow_right (by decide) h

/-- Settles O8: AddWithCarry of the complement with carry 1 is the difference and the flags of the closed form. -/
theorem subtractionClosedForm : Obligations.SubtractionClosedForm := by
  simp only [Obligations.SubtractionClosedForm, addWithCarry_sub]
  refine ⟨fun x y => ⟨?_, ?_, ?_, ?_, ?_, ?_, subFlags_v_iff_signs x y, fun hy hv => ?_⟩,
    fun imm3 _ _ => toNat_setWidth_lt imm3 (by decide), fun _ imm8 => toNat_setWidth_lt imm8 (by decide),
    fun i _ imm3 _ imm8 => toNat_setWidth_lt (i ++ imm3 ++ imm8) (by decide),
    fun _ imm8 => toNat_setWidth_lt imm8 (by decide),
    fun x => ⟨BitVec.sub_zero x, sub_zero_flags x⟩, fun x => by rw [BitVec.sub_self, sub_self_flags],
    by decide, by decide⟩
  · rw [BitVec.toNat_sub]
    omega
  · exact BitVec.msb_eq_getLsbD_last (x - y)
  · exact beq_iff_eq.trans sub_eq_zero.symm
  · exact beq_iff_eq
  · exact decide_eq_true_iff
  · exact decide_eq_true_iff
  · obtain ⟨hsign, hresult⟩ := (subFlags_v_iff_signs x y).1 hv
    rw [getLsbD_31_of_lt hy, Bool.ne_false_iff] at hsign
    exact ⟨hsign, Bool.eq_false_of_not_eq_true (hsign ▸ hresult)⟩

/-! ## Results (R70, R72 to R78, R82) -/

/-- R62's test on the IT state is T5's alone, whose destination is the PC. -/
theorem itPlaceOk_of_destOf {i : Instr} (it : BitVec 8) (hd : destOf i ≠ regPC) : itPlaceOk it i = true := by
  cases i with
  | subsPcLrT5 rn imm8 => exact absurd rfl hd
  | _ => rfl

/-- An instruction whose destination is not the PC and whose condition passed completes with the difference of its
operands, and with the flags of R71 where `setflags` is true. -/
theorem exec_result (i : Instr) (s : State) (hd : destOf i ≠ regPC) (hc : conditionPassed (condField i) s = true)
    (hpc : s.pc.toNat + i.length < 2 ^ 32) :
    exec i s = .next (resultState i (destOf i) (operandOf s i - immOf i)
      (if setsFlags s.pstate.it i then some (subFlags (operandOf s i) (immOf i)) else none) s) := by
  rw [exec_passed i s (itPlaceOk_of_destOf _ hd) hc]
  simp only [executePassed, decodedOf_d, hd, if_false, decodedOf_isA32, decodedOf_imm32, readReg_decodedOf,
    addWithCarry_sub]
  rw [complete_of_lt _ _ (by rwa [writeResult_pc, decodedOf_len]),
    completed_writeResult i _ s _ _ (decodedOf_isA32 s i) (decodedOf_len s i), decodedOf_d, decodedOf_setflags]

/-- Registers R0 to R7, the destinations of the 16-bit encodings, are not the PC. -/
theorem setWidth_ne_regPC : ∀ r : BitVec 3, r.setWidth 4 ≠ regPC := by decide

/-- `setflags = !InITBlock()` (R60) as T1 and T2 use it. -/
theorem flags_outside_itBlock (it : BitVec 8) (f : Nzcv) :
    (if !inITBlock it then some f else none) = if inITBlock it then none else some f := by
  cases inITBlock it <;> rfl

/-- Settles O19: the result lemma at SUB A1, which sets no flags. -/
theorem subA1Result : Obligations.SubA1Result := fun cond rn rd imm12 s hd hc hpc =>
  exec_result (.subA1 cond rn rd imm12) s hd hc hpc

/-- Settles O20: the result lemma at SUBS A1. -/
theorem subsA1Result : Obligations.SubsA1Result := fun cond rn rd imm12 s hd hc hpc =>
  exec_result (.subsA1 cond rn rd imm12) s hd hc hpc

/-- Settles O21: the result lemma at T1, whose destination is a low register. -/
theorem subT1Result : Obligations.SubT1Result := by
  intro imm3 rn rd s hc hpc
  dsimp only
  rw [← flags_outside_itBlock]
  exact exec_result (.subT1 imm3 rn rd) s (setWidth_ne_regPC rd) hc hpc

/-- Settles O22: the result lemma at T2, whose operand is its destination's old value. -/
theorem subT2Result : Obligations.SubT2Result := by
  intro rdn imm8 s hc hpc
  dsimp only
  rw [← flags_outside_itBlock]
  exact exec_result (.subT2 rdn imm8) s (setWidth_ne_regPC rdn) hc hpc

/-- Settles O23: the result lemma at SUB T3, which sets no flags. -/
theorem subT3Result : Obligations.SubT3Result := fun i rn imm3 rd imm8 s hd hc hpc =>
  exec_result (.subT3 i rn imm3 rd imm8) s hd hc hpc

/-- Settles O24: the result lemma at SUBS T3, whose flags do not depend on the IT state. -/
theorem subsT3Result : Obligations.SubsT3Result := fun i rn imm3 rd imm8 s hd hc hpc =>
  exec_result (.subsT3 i rn imm3 rd imm8) s hd hc hpc

/-- Settles O25: the result lemma at T4, which sets no flags. -/
theorem subwT4Result : Obligations.SubwT4Result := fun i rn imm3 rd imm8 s hd hc hpc =>
  exec_result (.subwT4 i rn imm3 rd imm8) s hd hc hpc

/-! ## A condition that fails (R27, R80) -/

/-- An instruction whose condition failed only completes. -/
theorem exec_of_condition_false {i : Instr} {s : State} {c : BitVec 4} (hit : itPlaceOk s.pstate.it i = true)
    (hcur : currentCond (condField i) s.pstate.it = some c) (hfail : conditionHolds c s.pstate.flags = false)
    (hpc : s.pc.toNat + i.length < 2 ^ 32) : exec i s = .next (passedOver i s) := by
  have hcomplete : exec i s = complete (decodedOf s i) s := by
    simp [exec_eq_subImmediate i s hit, subImmediate, hcur, hfail]
  rw [hcomplete, complete_of_lt _ _ (by rwa [decodedOf_len]), completed_decodedOf]

/-- Outside an IT block the condition of a T32 instruction is AL. -/
theorem conditionPassed_of_it_zero {s : State} (h : s.pstate.it = 0#8) : conditionPassed none s = true := by
  have hal : currentCond none s.pstate.it = some 0b1110#4 := by rw [h]; rfl
  simp only [conditionPassed, hal]
  rfl

/-- Settles O26: the decode-time refusals, of R62 and of the decoder, and the condition after them. -/
theorem conditionFailedOnlyCompletes : Obligations.ConditionFailedOnlyCompletes :=
  ⟨fun _ _ _ hit hcur hfail hpc => exec_of_condition_false hit hcur hfail hpc,
    fun _ _ hit => exec_of_itPlaceOk_false hit,
    fun _ _ _ hfetch hil hdecode => step_of_decode_error hfetch hil hdecode,
    fun _ hit => conditionPassed_of_it_zero hit⟩

/-! ## A legal exception return (R100, R102, R103) -/

/-- A SUBS with destination PC whose condition passed, by a legal return. -/
theorem exec_subsPc_legal {i : Instr} {s : State} {b : SpsrBank} (hp : isSubsPc i = true)
    (hit : itPlaceOk s.pstate.it i = true) (hc : conditionPassed (condField i) s = true) (hm : s.pstate.m ≠ .hyp)
    (hb : s.pstate.m.spsrBank = some b) (hl : legalReturn s (s.spsr.get b) = true) :
    exec i s = .next (returnState true (operandOf s i - immOf i) (s.spsr.get b) s) := by
  rw [exec_subsPc_return i s b hp hit hc hm hb]
  exact exceptionReturn_next.2 (.inl ⟨hl, rfl⟩)

/-- A legal return is to the mode its SPSR names. -/
theorem mode_returnState_legal {s : State} {spsr : Word} (a : Word) (hl : legalReturn s spsr = true) :
    Mode.ofBits (spsr.extractLsb' 0 5) = some (returnState true a spsr s).pstate.m := by
  obtain ⟨m, hbits, -⟩ := legalReturn_mode s spsr hl
  simp [returnState, setPstateFromPSR, hbits]

/-- Settles O31: the legal return at SUBS A1 with Rd = PC. -/
theorem subsA1PcReturns : Obligations.SubsA1PcReturns := fun cond rn imm12 _ _ hc hm hb hl =>
  ⟨_, exec_subsPc_legal (i := .subsA1 cond rn regPC imm12) rfl rfl hc hm hb hl, returnState_leaves ..,
    mode_returnState_legal _ hl, rfl, rfl⟩

/-- Settles O32: the legal return at T5. -/
theorem subsPcLrReturns : Obligations.SubsPcLrReturns := fun rn imm8 _ _ hit hc hm hb hl =>
  ⟨_, exec_subsPc_legal (i := .subsPcLrT5 rn imm8) rfl hit hc hm hb hl, returnState_leaves ..,
    mode_returnState_legal _ hl, rfl, rfl⟩

end Sys2Proof.Machine
end

section
/-! SUPPORT. Where the PC goes (R90 to R95): past the instruction, refused at the top of the address space, or to a
branch target, which the interworking branch takes by its bits [1:0]. -/

namespace Sys2Proof.Machine

/-! ## The top of the address space (R95) -/

/-- Every path of the Operation but a PC write ends in Complete, which refuses the wrap. -/
theorem exec_of_wrap {i : Instr} {s : State} {c : BitVec 4} (hit : itPlaceOk s.pstate.it i = true)
    (hcur : currentCond (condField i) s.pstate.it = some c)
    (hseq : conditionHolds c s.pstate.flags = false ∨ destOf i ≠ regPC)
    (hwrap : 2 ^ 32 ≤ s.pc.toNat + i.length) : exec i s = .refused .pcWrap := by
  rw [← decodedOf_len s i] at hwrap
  simp only [exec_eq_subImmediate i s hit, subImmediate, decodedOf_cond, hcur]
  split
  next hholds =>
    have hd : destOf i ≠ regPC := hseq.resolve_left (by simp [hholds])
    simp only [executePassed, decodedOf_d, hd, if_false]
    exact complete_of_wrap _ _ (by rwa [writeResult_pc])
  next => exact complete_of_wrap _ _ hwrap

/-- The PC read as an operand wraps (R23, R95). -/
theorem toNat_readReg_pc (isA32 : Bool) (s : State) :
    (readReg isA32 regPC s).toNat = (s.pc.toNat + if isA32 then 8 else 4) % 2 ^ 32 := by
  rw [readReg_pc, BitVec.toNat_add]
  cases isA32 <;> rfl

/-- Settles O27: the refusal, the branch of R95's example to the difference modulo 2^32, and the PC read. -/
theorem sequentialWrapRefused : Obligations.SequentialWrapRefused := by
  refine ⟨fun _ _ _ hit hcur hseq hwrap => exec_of_wrap hit hcur hseq hwrap, fun rn s hzero => ?_,
    fun s => ⟨toNat_readReg_pc true s, toNat_readReg_pc false s⟩⟩
  have htarget : readReg true rn s - a32ExpandImm 4#12 = 0xFFFFFFFC#32 := by
    rw [hzero]
    decide
  rw [exec_subA1_pc 14#4 rn 4#12 s rfl, htarget]
  exact bxWritePC_next.2 (.inr (.inl ⟨rfl, rfl, rfl⟩))

/-! ## The interworking branch (R91) -/

theorem lowBits_of_and_three_eq_zero {a : Word} (h : a &&& 3#32 = 0#32) :
    a.getLsbD 0 = false ∧ a.getLsbD 1 = false := ((and_three a false false).1 h).symm

theorem lowBits_of_and_three_eq_two {a : Word} (h : a &&& 3#32 = 2#32) :
    a.getLsbD 0 = false ∧ a.getLsbD 1 = true := ((and_three a true false).1 h).symm

/-- An A32 target with bit 1 set is refused where the implementation's choice is not given (decision D11). -/
theorem bxWritePC_unresolved {a : Word} {s : State} (h0 : a.getLsbD 0 = false) (h1 : a.getLsbD 1 = true)
    (hpar : s.par.a32ForceAlignPC = .unresolved) : bxWritePC a s = .refused (.unpredictable .bxA32Unaligned) := by
  simp only [bxWritePC, h0, h1, hpar, Bool.false_eq_true, Bool.not_true, if_false]

/-- Settles O28: a failed condition only completes; a passed one branches by the target's bits [1:0] and the parameter,
and a target left with bit 1 set faults at the next fetch. -/
theorem subA1PcInterworks : Obligations.SubA1PcInterworks := by
  intro cond rn imm12 s a out
  refine ⟨fun hfail hpc => exec_of_condition_false (i := .subA1 cond rn regPC imm12) rfl rfl hfail hpc, fun hc => ?_⟩
  have hout : out = bxWritePC a s := exec_subA1_pc cond rn imm12 s hc
  rw [hout, ← alignT32_eq_and, ← alignA32_eq_and]
  refine ⟨fun h0 => ?_, fun hlow => ?_, fun hlow hpar => ?_, fun hlow hpar => ?_, fun hlow hpar => ⟨?_, ?_⟩⟩
  · exact bxWritePC_next.2 (.inl ⟨h0, rfl⟩)
  · obtain ⟨h0, h1⟩ := lowBits_of_and_three_eq_zero hlow
    exact bxWritePC_next.2 (.inr (.inl ⟨h0, h1, rfl⟩))
  · obtain ⟨h0, h1⟩ := lowBits_of_and_three_eq_two hlow
    exact bxWritePC_unresolved h0 h1 hpar
  · obtain ⟨h0, h1⟩ := lowBits_of_and_three_eq_two hlow
    exact bxWritePC_next.2 (.inr (.inr (.inl ⟨h0, h1, hpar, rfl⟩)))
  · obtain ⟨h0, h1⟩ := lowBits_of_and_three_eq_two hlow
    exact bxWritePC_next.2 (.inr (.inr (.inr ⟨h0, h1, hpar, rfl⟩)))
  · have hunaligned : a &&& 3#32 ≠ 0#32 := by
      rw [hlow]
      decide
    exact step_of_fetch_fault (fetch_a32_misaligned rfl hunaligned)

end Sys2Proof.Machine
end

section
/-! SUPPORT. The exceptions (R100 to R108): which returns are legal, what a SUBS with destination PC does that does not
return, the illegal return, the entry to Undefined mode and the return that undoes it, and who changes the mode. -/

namespace Sys2Proof.Machine

/-! ## Which returns are legal (R104) -/

/-- LegalReturn at an SPSR that names mode `m`: none of R104's events, and no pair the parameter rejects. -/
theorem legalReturn_iff {s : State} {spsr : Word} {m : Mode} (hm : Mode.ofBits (spsr.extractLsb' 0 5) = some m) :
    legalReturn s spsr = true ↔
      m.implemented s.par = true ∧ m.level s.par s.sys ≤ s.pstate.m.level s.par s.sys ∧
      (m = .hyp → secureState s.par s.sys = false) ∧
      (m.level s.par s.sys = 1 → s.par.haveEL2 = true → s.sys.hcrTGE = false) ∧
      (s.pstate.m, spsr) ∉ s.par.illegalReturns := by
  simp [legalReturn, hm, and_assoc, imp_iff_not_or, or_assoc]

/-- Every value with M[4] = 0 is reserved (R31). -/
theorem ofBits_eq_none_of_getLsbD_four : ∀ b : BitVec 5, b.getLsbD 4 = false → Mode.ofBits b = none := by decide

theorem legalReturn_of_ofBits_none {s : State} {spsr : Word} (h : Mode.ofBits (spsr.extractLsb' 0 5) = none) :
    legalReturn s spsr = false := by
  simp only [legalReturn, h]

/-- Settles O33: an SPSR with a reserved M names no mode; one that names a mode is legal exactly where none of R104's
events occurs, so each event rejects it and their absence accepts it. -/
theorem illegalReturnEvents : Obligations.IllegalReturnEvents := by
  intro s spsr m
  refine ⟨fun h4 => ?_, legalReturn_of_ofBits_none, fun hm => ?_⟩
  · exact legalReturn_of_ofBits_none (ofBits_eq_none_of_getLsbD_four _ (by simpa using h4))
  · simp only [← Bool.not_eq_true, legalReturn_iff hm]
    refine ⟨?_, ?_, ?_, ?_, ?_, ?_, ?_⟩
    · rintro rfl hel2 ⟨himpl, -⟩
      exact hel2 himpl
    · rintro rfl hel3 ⟨himpl, -⟩
      exact hel3 himpl
    · rintro hlt ⟨-, hle, -⟩
      exact absurd hle (Nat.not_le.2 hlt)
    · rintro hhyp hsecure ⟨-, -, hns, -⟩
      exact hns hhyp hsecure
    · rintro hlevel hel2 htge ⟨-, -, -, hclear, -⟩
      exact hclear hlevel hel2 htge
    · rintro hmem ⟨-, -, -, -, hnot⟩
      exact hnot hmem
    · exact fun himpl hle hns hclear hnot => ⟨himpl, hle, hns, hclear, hnot⟩

/-! ## SUBS with destination PC where it does not return (R100, R101) -/

/-- In User and System mode a SUBS with destination PC is the implementation's choice. -/
theorem exec_subsPc_userSys {i : Instr} {s : State} (hp : isSubsPc i = true) (hit : itPlaceOk s.pstate.it i = true)
    (hc : conditionPassed (condField i) s = true) (hm : s.pstate.m = .usr ∨ s.pstate.m = .sys) :
    exec i s = userSysReturn (decodedOf s i) s := by
  rw [exec_subsPc i s hp hit hc, aluExceptionReturn]
  obtain hm | hm := hm <;> simp [hm, Mode.spsrBank]

/-- Settles O29: the exception would be taken to Hyp mode, whose entry no rule gives, so it is a fault however far
exceptions are followed. -/
theorem subsPcInHypUndefined : Obligations.SubsPcInHypUndefined := by
  intro i s hp hit hc hm
  have htaken : takenToUndefinedMode s = false := by simp [takenToUndefinedMode, hm]
  rw [exec_subsPc i s hp hit hc, aluExceptionReturn, if_pos hm, decodedOf_bits]
  exact takeUndefinedInstruction_terminal _ _ (.inr htaken)

/-- Settles O30: one clause for each choice, and for an UNDEFINED instruction one for each way to follow exceptions. -/
theorem subsPcInUserSystem : Obligations.SubsPcInUserSystem := by
  intro i s hp hit hc hm
  rw [exec_subsPc_userSys hp hit hc hm, userSysReturn, decodedOf_bits, decodedOf_isA32]
  refine ⟨fun hn => ?_, fun hn hpc => ?_, fun hn hx => ?_, fun hn hx htaken => ?_⟩ <;> simp only [hn]
  · rw [complete_of_lt _ _ (by rwa [decodedOf_len]), completed_decodedOf]
  · exact takeUndefinedInstruction_terminal _ _ (.inl hx)
  · exact takeUndefinedInstruction_next.2 ⟨hx, htaken, rfl⟩

/-! ## An illegal return (R103, R104) -/

/-- Settles O34: ExceptionReturn by an SPSR that LegalReturn rejects. -/
theorem illegalReturnFaults : Obligations.IllegalReturnFaults := by
  intro i s b hp hit hc hm hb hl hx
  rw [exec_subsPc_return i s b hp hit hc hm hb]
  simp [exceptionReturn, hl, hx]

/-- Settles O35: the return goes on with LegalReturn's answer FALSE. -/
theorem illegalReturnSetsIl : Obligations.IllegalReturnSetsIl := by
  intro i s b hp hit hc hm hb hl hx
  rw [exec_subsPc_return i s b hp hit hc hm hb]
  exact ⟨_, exceptionReturn_next.2 (.inr ⟨hl, hx, rfl⟩), returnState_leaves .., rfl, rfl⟩

/-! ## The entry to Undefined mode (R107) -/

theorem enterUndefinedMode_lr (isA32 : Bool) (s : State) :
    (enterUndefinedMode isA32 s).regs.get (.lr .und) = s.pc + (if isA32 then 4#32 else 2#32) := by
  simp [enterUndefinedMode, regFile_get_set]

theorem enterUndefinedMode_get_other (isA32 : Bool) (s : State) {p : PhysReg} (h : p ≠ .lr .und) :
    (enterUndefinedMode isA32 s).regs.get p = s.regs.get p := by
  simp [enterUndefinedMode, regFile_get_set, h.symm]

/-- Settles O36: the step is the entry, whose every field is read off. -/
theorem illegalStateEntersUndefined : Obligations.IllegalStateEntersUndefined := by
  intro s bytes hf hil hx htaken
  have hstep : step s = .next (enterUndefinedMode (!s.pstate.t) s) :=
    (step_of_illegalState hf hil).trans (takeUndefinedInstruction_next.2 ⟨hx, htaken, rfl⟩)
  have hlr : (enterUndefinedMode (!s.pstate.t) s).regs.get (.lr .und) =
      s.pc + (if s.pstate.t then 2#32 else 4#32) := by
    rw [enterUndefinedMode_lr]
    cases s.pstate.t <;> rfl
  exact ⟨_, hstep, rfl, hlr, fun _ hp => enterUndefinedMode_get_other _ s hp, rfl, rfl, rfl, rfl, rfl, rfl, rfl, rfl,
    rfl⟩

/-! ## The return that undoes the entry (R102, R103, R108) -/

theorem alignT32_of_even {a : Word} (h : a.getLsbD 0 = false) : alignT32 a = a := by
  have hlow : a.extractLsb' 0 1 = 0#1 := extract_one_of_getLsbD h
  rw [alignT32, ← hlow, BitVec.extractLsb'_append_extractLsb'_eq_extractLsb' (by rfl)]
  simp

theorem alignA32_of_aligned {a : Word} (h : a &&& 3#32 = 0#32) : alignA32 a = a := by
  have hlow : a.extractLsb' 0 2 = 0#2 := (and_three_eq_zero a).1 h
  rw [alignA32, ← hlow, BitVec.extractLsb'_append_extractLsb'_eq_extractLsb' (by rfl)]
  simp

/-- RestoredIT keeps an IT state that fits the instruction set and the restriction of IT blocks. -/
theorem restoredIT_eq_self {itd t : Bool} {it : BitVec 8} (hkind : itReserved it = false)
    (ha32 : t = false → it = 0#8) (hitd : itd = false ∨ it.extractLsb' 0 3 = 0#3) : restoredIT itd t it = it := by
  obtain ⟨-, hzero, -, hkept⟩ := restoredIT_cases itd t it
  cases t with
  | false => rw [hzero rfl, ha32 rfl]
  | true => exact hkept hkind rfl hitd

theorem spsrIT_psrOf (par : Params) (p : Pstate) : spsrIT (psrOf par p) = p.it := by
  obtain ⟨-, -, -, -, -, hlow, -, -, -, -, -, -, hhigh, -⟩ := savedPstateLayout par p
  rw [spsrIT, hlow, hhigh, BitVec.extractLsb'_append_extractLsb'_eq_extractLsb' (by rfl)]
  simp

/-- SetPSTATEFromPSR of a saved PSTATE gives it back, where IL and SS were 0, RestoredIT keeps the IT state, and the
fields that may not be implemented still hold what they held. -/
theorem setPstateFromPSR_psrOf {par : Params} {sys : SysCtl} {p q : Pstate} (v : Word) (hil : p.il = false)
    (hss : p.ss = false) (hsoft : par.softwareStep = false) (hit : restoredIT (itdOf sys p.m) p.t p.it = p.it)
    (hpan : q.pan = p.pan) (hssbs : q.ssbs = p.ssbs) (hdit : q.dit = p.dit) :
    setPstateFromPSR par sys true v (psrOf par p) q = p := by
  obtain ⟨hn, hz, hc, hv, hq, -, -, hssbs', hpan', hdit', hil', hge, -, he, ha, hi, hf, ht, -, hm⟩ :=
    savedPstateLayout par p
  have keep : ∀ impl b : Bool, (if impl = true then impl && b else b) = b := by decide
  simp only [setPstateFromPSR, if_true, hn, hz, hc, hv, hq, hssbs', hpan', hdit', hil', hge, he, ha, hi, hf, ht, hm,
    hil, hsoft, hpan, hssbs, hdit, spsrIT_psrOf, Option.getD_some, Bool.false_eq_true, if_false, hit, keep]
  cases p
  cases hil
  cases hss
  rfl

/-- The PC an exception return gives is its target, where that fits the restored instruction set. -/
theorem returnPc_eq_self {p : Pstate} {a : Word} (v : Word) (hil : p.il = false)
    (ha32 : p.t = false → a &&& 3#32 = 0#32) (ht32 : p.t = true → a.getLsbD 0 = false) : returnPc v p a = a := by
  cases ht : p.t with
  | false => simpa [returnPc, hil, ht] using alignA32_of_aligned (ha32 ht)
  | true => simpa [returnPc, hil, ht] using alignT32_of_even (ht32 ht)

/-- The handler's `SUBS PC, LR` goes back to the instruction that was UNDEFINED (R108). -/
theorem operandOf_sub_immOf_handler (isA32 : Bool) (s : State) :
    let i : Instr := .subsA1 14#4 14#4 15#4 (if isA32 then 4#12 else 2#12)
    operandOf (enterUndefinedMode isA32 s) i - immOf i = s.pc := by
  have hlr : readReg true 14#4 (enterUndefinedMode isA32 s) = s.pc + (if isA32 then 4#32 else 2#32) :=
    enterUndefinedMode_lr isA32 s
  have himm : a32ExpandImm (if isA32 then 4#12 else 2#12) = if isA32 then 4#32 else 2#32 := by
    cases isA32 <;> decide
  simp only [operandOf, immOf, hlr, himm, BitVec.add_sub_cancel]

/-- Settles O37: the return is legal by the PSTATE the entry saved, and its target is the PC the entry left. -/
theorem returnUndoesUndefinedEntry : Obligations.ReturnUndoesUndefinedEntry := by
  intro s isA32 ht hil hss hsoft hkind ha32 ht32 hitd hl
  have hexec := exec_subsPc_legal (i := .subsA1 14#4 14#4 15#4 (if isA32 then 4#12 else 2#12))
    (s := enterUndefinedMode isA32 s) (b := .und) rfl rfl rfl nofun rfl hl
  rw [operandOf_sub_immOf_handler] at hexec
  replace ha32 : s.pstate.t = false → s.pstate.it = 0#8 ∧ s.pc &&& 3#32 = 0#32 :=
    fun h => ha32 (by simpa [ht] using h)
  replace ht32 : s.pstate.t = true → s.pc.getLsbD 0 = false := fun h => ht32 (by simpa [ht] using h)
  have hit : restoredIT (itdOf s.sys s.pstate.m) s.pstate.t s.pstate.it = s.pstate.it :=
    restoredIT_eq_self hkind (fun h => (ha32 h).1) (hitd.imp_right (and_seven_eq_zero _).1)
  have hpstate := setPstateFromPSR_psrOf (q := (enterUndefinedMode isA32 s).pstate)
    (Config.freeValue s.draws) hil hss hsoft hit rfl rfl rfl
  refine ⟨_, hexec, hpstate, ?_, fun p hp => enterUndefinedMode_get_other isA32 s hp⟩
  exact (congrArg (returnPc _ · s.pc) hpstate).trans (returnPc_eq_self _ hil (fun h => (ha32 h).2) ht32)

/-! ## Who changes the mode (R112) -/

/-- An instruction that changes the mode is a SUBS with destination PC whose condition passed: a legal return to the
mode its SPSR names, or UNDEFINED in User or System mode with its exception entered. -/
theorem Effect.mode_change {x : Decoded} {s t : State} (h : Effect x s t) (hm : t.pstate.m ≠ s.pstate.m) :
    conditionPassed x.cond s = true ∧ x.d = regPC ∧ x.setflags = true ∧
    ((s.pstate.m ≠ .hyp ∧ ∃ b, s.pstate.m.spsrBank = some b ∧ legalReturn s (s.spsr.get b) = true ∧
        Mode.ofBits ((s.spsr.get b).extractLsb' 0 5) = some t.pstate.m) ∨
      (s.par.exceptions = .entered ∧ takenToUndefinedMode s = true ∧ t = enterUndefinedMode x.isA32 s ∧
        (s.pstate.m = .usr ∨ s.pstate.m = .sys) ∧ s.par.aluExcReturnUserSys = .undefined)) := by
  have plain : ¬ PlainFrame x s t := fun hframe => hm (by rw [hframe.pstate])
  cases h with
  | passed _ ht => exact absurd (ht ▸ .of_completed x s) plain
  | wrote _ _ _ ht => exact absurd (ht ▸ .of_wrote x _ _ s) plain
  | branched _ hd _ ht => exact absurd (.of_branched hd ht) plain
  | returned b legal hc hd hf hhyp hb hl _ ht =>
    subst ht
    cases legal with
    | true => exact ⟨hc, hd, hf, .inl ⟨hhyp, b, hb, hl, mode_returnState_legal _ hl⟩⟩
    | false => exact absurd rfl hm
  | entered hc hd hf huser hn hx htaken ht => exact ⟨hc, hd, hf, .inr ⟨hx, htaken, ht, huser, hn⟩⟩

/-- Settles O48: a step is the entry from the Illegal Execution state, or a decoded instruction that changed the mode; a
well-formed one with destination PC that sets flags is a SUBS with destination PC, of the instruction set PSTATE.T
selects. -/
theorem modeChangesOnlyByReturnOrEntry : Obligations.ModeChangesOnlyByReturnOrEntry := by
  intro s t hstep hm
  obtain ⟨hil, hx, htaken, ht⟩ | ⟨hil, bytes, i, rest, hfetch, hdec, hexec⟩ := step_next hstep
  · exact .inr ⟨hx, htaken, ht, .inl hil⟩
  · obtain ⟨hwf, ha32, -⟩ := decodeThenEncode _ _ _ _ hdec
    obtain ⟨hc, hd, hf, hcase⟩ := (exec_next hexec).mode_change hm
    rw [decodedOf_cond] at hc
    rw [decodedOf_d] at hd
    rw [decodedOf_setflags] at hf
    have hp : isSubsPc i = true := isSubsPc_of_dest i _ hwf hd hf
    obtain ⟨hhyp, b, hb, hl, hmode⟩ | ⟨hx, htaken, ht, huser, hn⟩ := hcase
    · exact .inl ⟨hil, bytes, rest, i, b, hfetch, hdec, hp, hc, hhyp, hb, hl, hmode⟩
    · rw [decodedOf_isA32, ha32] at ht
      exact .inr ⟨hx, htaken, ht, .inr ⟨bytes, rest, i, hfetch, hdec, hp, hc, huser, hn⟩⟩

end Sys2Proof.Machine
end

section
/-! SUPPORT. The run to `Exit` (R122): what `runTo` answers by the PC and by what the next step does, and the end of a
run whatever fuel is left. -/

namespace Sys2Proof.Machine

variable {exit : Word} {s t : State}

/-! ## What a run answers, by the PC and the next step -/

@[simp] theorem runTo_self (k : Nat) (s : State) : runTo s.pc k s = some (.next s) := by
  cases k <;> exact if_pos rfl

theorem runTo_succ_of_next (k : Nat) (hpc : s.pc ≠ exit) (hstep : step s = .next t) :
    runTo exit (k + 1) s = runTo exit k t := by
  simp [runTo, hpc, hstep]

theorem runTo_succ_of_fault {r : Fault} (k : Nat) (hpc : s.pc ≠ exit) (hstep : step s = .fault r) :
    runTo exit (k + 1) s = some (.fault r) := by
  simp [runTo, hpc, hstep]

theorem runTo_succ_of_refused {r : Refusal} (k : Nat) (hpc : s.pc ≠ exit) (hstep : step s = .refused r) :
    runTo exit (k + 1) s = some (.refused r) := by
  simp [runTo, hpc, hstep]

/-! ## The end of a run -/

theorem pc_of_runTo_next {k : Nat} (h : runTo exit k s = some (.next t)) : t.pc = exit := by
  fun_induction runTo exit k s with
  | case1 s hpc | case3 k s hpc =>
    cases h
    exact hpc
  | case2 | case5 | case6 => cases h
  | case4 k s hpc u hstep ih => exact ih h

theorem runTo_add {k : Nat} {o : Host.Outcome State Fault Refusal} (j : Nat) (h : runTo exit k s = some o) :
    runTo exit (k + j) s = some o := by
  fun_induction runTo exit k s with
  | case1 s hpc | case3 k s hpc =>
    subst hpc
    exact (runTo_self _ s).trans h
  | case2 => cases h
  | case4 k s hpc u hstep ih =>
    rw [Nat.succ_add]
    exact (runTo_succ_of_next _ hpc hstep).trans (ih h)
  | case5 k s hpc r hstep =>
    rw [Nat.succ_add]
    exact (runTo_succ_of_fault _ hpc hstep).trans h
  | case6 k s hpc r hstep =>
    rw [Nat.succ_add]
    exact (runTo_succ_of_refused _ hpc hstep).trans h

/-- Settles O53, each part by the run's own induction over fuel and state. -/
theorem runEndsAtExit : Obligations.RunEndsAtExit :=
  ⟨fun _ _ _ _ => pc_of_runTo_next, fun _ _ j _ _ => runTo_add j, runTo_self⟩

end Sys2Proof.Machine
end
